-- ==== Sys2Proof/Word.lean ====
section
/-! DEFINITION. The machine's word types: bytes, 16-bit words and register indices (spec rules R8, R9, R10). -/

namespace Sys2Proof

/-- An 8-bit unsigned value: a memory cell, a general register, a timer (rules R22, R35, R50). -/
abbrev Byte := BitVec 8

/-- A 16-bit unsigned value: an instruction word, `I`, `pc`, a stack slot (rules R26, R28, R31, R70). -/
abbrev Word := BitVec 16

/-- A general register's index, 0 to 15 (rule R10). -/
abbrev Reg := Fin 16

/-- The register the source calls VF: `V[15]` (rules R10, R23). -/
abbrev vf : Reg := 15

end Sys2Proof
end

