-- ==== Sys2Proof/Config.lean ====
section
/-! DEFINITION. What is fixed for a run: the fixed sizes and the named parameters of rule R6, their defaults, and the
free values the host supplies where no host call is given (rules R13, R100). -/

namespace Sys2Proof

/-- `VF_DEST_ORDER` (rules R6, R150): which value VF keeps when 8xy4 to 8xyE have x = F. -/
inductive VfDestOrder where
  | resultWins
  | flagWins
  deriving DecidableEq, Repr

/-- `KEY_RANGE_POLICY` (rule R6, 45_timers_keys.md section 1): what Ex9E and ExA1 see when Vx > 15. -/
inductive KeyRangePolicy where
  | notDown
  | lowNibble
  deriving DecidableEq, Repr

/-- `MEM_OOB_POLICY` (rules R6, R56, R183): what an I-relative access at or above 4096 does. -/
inductive MemOobPolicy where
  | fatal
  | wrap
  deriving DecidableEq, Repr

/-- The parameters of rule R6. The configuration is fixed for a run (rule R20). -/
structure Config where
  /-- `STACK_SIZE`, the slots of the call stack. -/
  stackSize      : Nat
  /-- `FB_W`, the framebuffer's width in cells. -/
  fbW            : Nat
  /-- `FB_H`, the framebuffer's height in cells. -/
  fbH            : Nat
  /-- `IPS`, instructions per second. -/
  ips            : Nat
  /-- `TICKS_PER_SECOND`, timestamp units per second. -/
  ticksPerSecond : Nat
  /-- `FONT`, the 80 font bytes. -/
  font           : Vector Byte 80
  /-- `VF_DEST_ORDER`. -/
  vfDestOrder    : VfDestOrder
  /-- `KEY_RANGE_POLICY`. -/
  keyRangePolicy : KeyRangePolicy
  /-- `MEM_OOB_POLICY`. -/
  memOobPolicy   : MemOobPolicy
  deriving DecidableEq, Repr

namespace Config

/-- `MEM_SIZE` (rule R6). -/
abbrev memSize : Nat := 4096

/-- `ROM_BASE`, the load address and the reset pc (rule R6). -/
abbrev romBase : Nat := 0x200

/-- `ROM_MAX`, the largest ROM accepted, in bytes (rule R6). -/
abbrev romMax : Nat := memSize - romBase

/-- `TIMER_HZ` (rule R6). -/
abbrev timerHz : Nat := 60

/-- `FONT_GLYPH_BYTES` (rule R6). -/
abbrev fontGlyphBytes : Nat := 5

/-- The ranges of the parameters: `STACK_SIZE` is 16 to 64 (rule R6). DESIGN CHOICE (log 12): rule R6 gives the
framebuffer's sides and the two rates no range; the model takes them positive. -/
abbrev WF (c : Config) : Prop :=
  16 ≤ c.stackSize ∧ c.stackSize ≤ 64 ∧ 0 < c.fbW ∧ 0 < c.fbH ∧ 0 < c.ips ∧ 0 < c.ticksPerSecond

/-- Table F of 93_implementation_defined.md, glyphs 0 to 7. PRESUMED (log 7): the spec marks the bytes as general
knowledge. -/
def fontLow : List Byte :=
  [0xF0, 0x90, 0x90, 0x90, 0xF0] ++ [0x20, 0x60, 0x20, 0x20, 0x70] ++
  [0xF0, 0x10, 0xF0, 0x80, 0xF0] ++ [0xF0, 0x10, 0xF0, 0x10, 0xF0] ++
  [0x90, 0x90, 0xF0, 0x10, 0x10] ++ [0xF0, 0x80, 0xF0, 0x10, 0xF0] ++
  [0xF0, 0x80, 0xF0, 0x90, 0xF0] ++ [0xF0, 0x10, 0x20, 0x40, 0x40]

/-- Table F, glyphs 8 to F. PRESUMED (log 7). -/
def fontHigh : List Byte :=
  [0xF0, 0x90, 0xF0, 0x90, 0xF0] ++ [0xF0, 0x90, 0xF0, 0x10, 0xF0] ++
  [0xF0, 0x90, 0xF0, 0x90, 0x90] ++ [0xE0, 0x90, 0xE0, 0x90, 0xE0] ++
  [0xF0, 0x80, 0x80, 0x80, 0xF0] ++ [0xE0, 0x90, 0x90, 0x90, 0xE0] ++
  [0xF0, 0x80, 0xF0, 0x80, 0xF0] ++ [0xF0, 0x80, 0xF0, 0x80, 0x80]

/-- The defaults of rule R6 (log 2). -/
def standard : Config where
  stackSize      := 16
  fbW            := 64
  fbH            := 32
  ips            := 700
  ticksPerSecond := 1000000000
  font           := ⟨(fontLow ++ fontHigh).toArray, rfl⟩
  vfDestOrder    := .resultWins
  keyRangePolicy := .notDown
  memOobPolicy   := .fatal

/-- The timestamp of a `Step` call that is not given: a free value (rules R13, R100; log 1). -/
opaque freeNow : Nat → Nat

/-- The key snapshot of a `Step` call that is not given: a free value (rules R13, R252; log 1). -/
opaque freeKeys : Nat → BitVec 16

/-- The random byte of a `Step` call that is not given: a free value (rules R13, R162, R254; log 1). -/
opaque freeRnd : Nat → Byte

/-- The answer to a key wait that is not given: a free value, a key 0 to 15 or a cancellation (rules R13, R112,
R253; log 1). -/
opaque freeKeyEvent : Nat → Option (Fin 16)

end Config

end Sys2Proof
end

