-- ==== Sys2Proof/Machine/State.lean ====
section
/-! DEFINITION. The machine's state: every element of rule R20, the configuration of rule R6 and the host's inputs of
rule R100; the reasons a step stops; the state after reset (rules R43, R272). -/

namespace Sys2Proof.Machine

/-- A fatal condition (rule R241). -/
inductive Cause where
  /-- Code 1, raised by construction: the ROM does not fit (R271). -/
  | romTooLarge
  /-- Code 2, raised by the fetch (R106). -/
  | programOutOfBounds
  /-- Code 3, raised by 2nnn (R132). -/
  | stackOverflow
  /-- Code 4, raised by 00EE (R130). -/
  | stackUnderflow
  /-- Code 5, raised by Dxyn, Fx33, Fx55 and Fx65 (R183). -/
  | memoryOutOfBounds
  /-- Code 6, raised by the answer `Cancelled` to a key wait (R112). -/
  | keyWaitCancelled
  deriving DecidableEq, Repr

/-- `RUN` (rule R41). -/
inductive RunState where
  /-- Normal stepping. -/
  | running
  /-- An Fx0A waits for the key it will store into `V[x]`. -/
  | awaitKey (x : Reg)
  /-- A fatal condition has ended the run. -/
  | halted (cause : Cause)
  deriving DecidableEq, Repr

/-- The inputs of one `Step` (rules R100, R250). -/
structure StepInput where
  /-- `input.now`, in units of `1 / TICKS_PER_SECOND` s. -/
  now  : Nat
  /-- `input.keys`: bit k says whether logical key k is down. -/
  keys : BitVec 16
  /-- `input.rnd`, the random byte. -/
  rnd  : Byte
  deriving DecidableEq, Repr

/-- The host's answer to a key wait (rules R100, R253). The host must report a key 0 to 15 (rule R256); a greater
one can be written here and is refused. -/
inductive KeyEvent where
  | pressed (k : Nat)
  | cancelled
  deriving DecidableEq, Repr

/-- A call the host makes: one of the two transitions of rule R100. -/
inductive HostCall where
  | step (input : StepInput)
  | keyEvent (e : KeyEvent)
  deriving DecidableEq, Repr

/-- Memory: the bytes that differ from what construction left, as (address, byte) entries (log 9). -/
abbrev Memory := List Host.Cell

/-- The framebuffer: the indices `row * FB_W + col` of the lit cells, rising (rule R37; log 8). -/
abbrev Framebuffer := List Nat

/-- The state. The fields down to `run` are the elements of rule R20; `cfg` is the configuration, which no step
writes (log 2); `input`, `pending` and `draws` are the model's own: the host's side of rule R100 (log 1). -/
structure State where
  /-- The configuration (rule R6). -/
  cfg       : Config
  /-- `MEM[0..4095]` (R50). -/
  mem       : Memory
  /-- `V[0..15]` (R22). -/
  v         : Vector Byte 16
  /-- `I` (R26). -/
  i         : Word
  /-- `pc` (R28). -/
  pc        : Word
  /-- `STACK[0..STACK_SIZE-1]` (R31). -/
  stack     : List Word
  /-- `SP` (R31). -/
  sp        : Nat
  /-- `DT` (R35). -/
  dt        : Byte
  /-- `ST` (R35). -/
  st        : Byte
  /-- `FB` (R37). -/
  fb        : Framebuffer
  /-- `T_TIMER` (R40). -/
  tTimer    : Nat
  /-- `T_INSTR` (R40). -/
  tInstr    : Nat
  /-- `CLEAR_REQ` (R39). -/
  clearReq  : Bool
  /-- `REDRAW_REQ` (R39). -/
  redrawReq : Bool
  /-- `TONE` (R39). -/
  tone      : Bool
  /-- `RUN` (R41). -/
  run       : RunState
  /-- The inputs of the step in progress. -/
  input     : StepInput
  /-- The host calls already given, oldest first. -/
  pending   : List HostCall
  /-- How many free inputs have been drawn. -/
  draws     : Nat
  deriving DecidableEq, Repr

/-- Why the machine stops. -/
inductive Fault where
  /-- A step in the state `Halted(cause)`: no transition exists (rules R100, R240). Raised by `step` only. Safe: the
  machine stops in the state that the fatal condition left, as the spec says (log 3). -/
  | halted (cause : Cause)
  /-- `Fatal(RomTooLarge)`: construction produces no machine (rules R241, R271). Raised by `construct` only, never by
  a step. Safe. -/
  | romTooLarge
  deriving DecidableEq, Repr

/-- Why a call has no meaning. -/
inductive Refusal where
  /-- An instruction the model gives no meaning, by its mnemonic; no arm of `exec` answers so. Safe. -/
  | notModelled (mnemonic : String)
  /-- A given `Step` call while `RUN = AwaitKey(x)`: not enabled (rules R100, R111). Raised by `step`. Safe (log 4). -/
  | stepWhileAwaitingKey
  /-- A given `KeyEvent` call while `RUN = Running`: not enabled (rule R100). Raised by `step`. Safe (log 4). -/
  | keyEventWhileRunning
  /-- A given `Pressed(k)` with k > 15: it has no move (rule R256, U17). Raised by `step`. Safe (log 4). -/
  | keyOutOfRange
  deriving DecidableEq, Repr

/-- The machine after `initialize([], 0)` with the default parameters (rules R43, R272; logs 2 and 5). -/
def State.reset : State where
  cfg       := Config.standard
  mem       := []
  v         := Vector.replicate 16 0
  i         := 0
  pc        := 0x200
  stack     := List.replicate 16 0
  sp        := 0
  dt        := 0
  st        := 0
  fb        := []
  tTimer    := 0
  tInstr    := 0
  clearReq  := false
  redrawReq := false
  tone      := false
  run       := .running
  input     := { now := 0, keys := 0, rnd := 0 }
  pending   := []
  draws     := 0

end Sys2Proof.Machine
end

