-- ==== Sys2Proof/Machine/Ops.lean ====
section
/-! DEFINITION. The named operations over memory, registers and the framebuffer, and raising a fatal condition. -/

namespace Sys2Proof.Machine

/-! ## Memory (rules R11, R50, R52, R54) -/

/-- What an address that memory does not list reads as: the contents construction leaves without a ROM, the font
table at 0x000 to 0x04F and 0 elsewhere (rules R52, R54). -/
def unlisted (font : Vector Byte 80) (a : Nat) : Byte := if h : a < 80 then font[a] else 0

namespace Memory

/-- The listed byte of an address. -/
def lookup : Memory → Nat → Option Byte
  | [], _ => none
  | (b, w) :: m, a => if a = b then some w else lookup m a

/-- List a byte at an address, keeping the addresses rising. -/
def put : Memory → Nat → Byte → Memory
  | [], a, w => [(a, w)]
  | (b, u) :: m, a, w =>
    if a < b then (a, w) :: (b, u) :: m else if a = b then (a, w) :: m else (b, u) :: put m a w

/-- Take an address out of the list. -/
def drop : Memory → Nat → Memory
  | [], _ => []
  | (b, u) :: m, a => if a = b then m else (b, u) :: drop m a

/-- The byte at an address. -/
def read (font : Vector Byte 80) (m : Memory) (a : Nat) : Byte := (lookup m a).getD (unlisted font a)

/-- Memory after a byte is written. Writing what the unlisted address reads as takes the entry out. -/
def write (font : Vector Byte 80) (m : Memory) (a : Nat) (w : Byte) : Memory :=
  if w = unlisted font a then drop m a else put m a w

/-- The canonical form: addresses inside the address space and strictly rising, and no entry equal to what the
unlisted address reads as. -/
abbrev wf (font : Vector Byte 80) (m : Memory) : Prop :=
  m.Pairwise (fun c d => c.1 < d.1) ∧ ∀ c ∈ m, c.1 < Config.memSize ∧ c.2 ≠ unlisted font c.1

end Memory

namespace State

/-- `MemRead(a, 1)` (rule R11). -/
def readByte (s : State) (a : Nat) : Byte := s.mem.read s.cfg.font a

/-- `MemWrite(a, 1, w)` (rule R11). -/
def writeByte (s : State) (a : Nat) (w : Byte) : State := { s with mem := s.mem.write s.cfg.font a w }

/-- `Addr(a)` (rule R183): the address itself inside memory, and modulo 4096 outside it, which only `Wrap` reaches. -/
def addr (a : Nat) : Nat := if a < Config.memSize then a else a % Config.memSize

/-- Write bytes to the exact addresses `a`, `a + 1`, ... in order, each through `Addr`. -/
def storeBytes : State → Nat → List Byte → State
  | s, _, [] => s
  | s, a, w :: ws => storeBytes (s.writeByte (addr a) w) (a + 1) ws

/-! ## General registers (rules R10, R22, R23) -/

/-- `V[x]`. -/
def getV (s : State) (x : Reg) : Byte := s.v[x]

/-- `V[x] <- w`. VF is a register like any other (rule R23). -/
def setV (s : State) (x : Reg) (w : Byte) : State := { s with v := s.v.set x w }

/-- `V[0..x]`, in order (rules R185, R186). -/
def regsUpTo (x : Reg) : List Reg :=
  [0, 1, 2, 3, 4, 5, 6, 7, 8, 9, 10, 11, 12, 13, 14, 15].take (x.val + 1)

/-- For each register k of the list, in order, `V[k] <- MemRead(Addr(a + k), 1)`. -/
def loadFrom (a : Nat) : List Reg → State → State
  | [], s => s
  | k :: ks, s => loadFrom a ks (s.setV k (s.readByte (addr (a + k.val))))

/-! ## pc and the call stack (rules R28, R31) -/

/-- `pc <- target`. -/
def setPc (s : State) (target : Word) : State := { s with pc := target }

/-- `pc <- pc + 2`: the fetch's advance (rule R107), and a skip's (41_control_flow.md section 2). -/
def advancePc (s : State) : State := s.setPc (s.pc + 2)

/-- Add 2 to pc when the condition holds. -/
def skipIf (c : Bool) (s : State) : State := if c then s.advancePc else s

/-- `STACK[SP]`. Log 10: an SP outside the array, which no run reaches, reads 0. -/
def stackTop (s : State) : Word := s.stack.getD s.sp 0

/-- Pre-increment SP and store at the new top (rule R31). -/
def push (s : State) (w : Word) : State := { s with sp := s.sp + 1, stack := s.stack.set (s.sp + 1) w }

/-- Post-decrement SP; the slot keeps its value (rules R31, R33). -/
def pop (s : State) : State := { s with sp := s.sp - 1 }

end State

/-! ## Framebuffer cells (rules R37, R204) -/

namespace Framebuffer

/-- `FB[c] = 1`. -/
def lit (fb : Framebuffer) (c : Nat) : Bool := decide (c ∈ fb)

/-- `FB[c] <- FB[c] ^ 1`. -/
def toggle : Framebuffer → Nat → Framebuffer
  | [], c => [c]
  | d :: fb, c => if c < d then c :: d :: fb else if c = d then fb else d :: toggle fb c

/-- Toggle the cells in order, noting whether one of them was lit (rule R204). -/
def xorCells : Framebuffer → List Nat → Framebuffer × Bool
  | fb, [] => (fb, false)
  | fb, c :: cs => ((xorCells (fb.toggle c) cs).1, fb.lit c || (xorCells (fb.toggle c) cs).2)

/-- The canonical form of a framebuffer of `size` cells: strictly rising, every index inside. -/
abbrev wf (size : Nat) (fb : Framebuffer) : Prop := fb.Pairwise (· < ·) ∧ ∀ c ∈ fb, c < size

end Framebuffer

namespace State

/-- Cell (col, row) is lit: `FB[row * FB_W + col]` (rule R37). -/
def cellLit (s : State) (col row : Nat) : Bool := s.fb.lit (row * s.cfg.fbW + col)

end State

/-! ## Fatal conditions (rules R12, R240, R241, R245, R247) -/

/-- `raise Fatal(cause)`: RUN becomes `Halted(cause)` and everything else stays. A fatal condition saves no register,
changes no mode and transfers control nowhere (R245); no return from one exists (R247). -/
def raiseFatal (cause : Cause) (s : State) : State := { s with run := .halted cause }

/-- The numeric code of a cause (rule R241). -/
def Cause.code : Cause → Nat
  | .romTooLarge => 1
  | .programOutOfBounds => 2
  | .stackOverflow => 3
  | .stackUnderflow => 4
  | .memoryOutOfBounds => 5
  | .keyWaitCancelled => 6

/-- The address of the instruction that a halted state stopped at: `pc` for the fetch, `pc - 2` for an instruction
(rule R241). Construction leaves no state. -/
def State.faultAddress (s : State) : Option Word :=
  match s.run with
  | .halted .programOutOfBounds => some s.pc
  | .halted .romTooLarge => none
  | .halted _ => some (s.pc - 2)
  | _ => none

/-! ## What the host reads (rules R100, R250, R255) -/

/-- `StepResult`. -/
structure StepResult where
  clearRequested  : Bool
  redrawRequested : Bool
  toneAudible     : Bool
  deriving DecidableEq, Repr

/-- What a completed call returns: the three flags while running; a waiting or halted state returns none (rules R101,
R112, R240). -/
def State.stepResult (s : State) : Option StepResult :=
  match s.run with
  | .running => some ⟨s.clearReq, s.redrawReq, s.tone⟩
  | _ => none

/-- The framebuffer as the host sees it: one bit per cell, row-major (rule R255). -/
def State.frame (s : State) : List Bool := (List.range (s.cfg.fbW * s.cfg.fbH)).map s.fb.lit

end Sys2Proof.Machine
end

