-- ==== Sys2Proof/Machine/Construct.lean ====
section
/-! DEFINITION. Construction, the machine's only reset (rules R270 to R272). -/

namespace Sys2Proof.Machine

/-- The state construction leaves with an empty ROM (rule R272). -/
def blankState (cfg : Config) (start : Nat) : State where
  cfg       := cfg
  mem       := []
  v         := Vector.replicate 16 0
  i         := 0
  pc        := BitVec.ofNat 16 Config.romBase
  stack     := List.replicate cfg.stackSize 0
  sp        := 0
  dt        := 0
  st        := 0
  fb        := []
  tTimer    := start
  tInstr    := start
  clearReq  := false
  redrawReq := false
  tone      := false
  run       := .running
  input     := { now := 0, keys := 0, rnd := 0 }
  pending   := []
  draws     := 0

/-- `initialize(rom_bytes, start_timestamp)` (rules R271, R272). -/
def construct (cfg : Config) (rom : List Byte) (start : Nat) : Host.Outcome State Fault Refusal :=
  if Config.memSize < Config.romBase + rom.length then .fault .romTooLarge
  else .next ((blankState cfg start).storeBytes Config.romBase rom)

end Sys2Proof.Machine
end

