-- ==== Sys2Proof/Syntax.lean ====
section
/-! DEFINITION. The instruction set: one constructor per row of spec/opcode_table.json, in the table's order
(rule R72), and the unmapped words of rule R75. -/

namespace Sys2Proof

/-- One instruction, with the operands of rule R73. `x` and `y` are register indices, `nn` an 8-bit immediate, `nnn`
a 12-bit address, `n` a 4-bit row count. A field that an instruction decodes and ignores (the `y` of 8xy6 and 8xyE)
is kept, so that no bit of the word is dropped. -/
inductive Instr where
  /-- 00E0 `CLS` (R200). -/
  | cls
  /-- 00EE `RET` (R130). -/
  | ret
  /-- 1nnn `JP nnn` (R131). -/
  | jp (nnn : BitVec 12)
  /-- 2nnn `CALL nnn` (R132). -/
  | call (nnn : BitVec 12)
  /-- 3xnn `SE Vx, nn` (R133). -/
  | seImm (x : Reg) (nn : Byte)
  /-- 4xnn `SNE Vx, nn` (R134). -/
  | sneImm (x : Reg) (nn : Byte)
  /-- 5xy0 `SE Vx, Vy` (R135). -/
  | seReg (x y : Reg)
  /-- 6xnn `LD Vx, nn` (R151). -/
  | ldImm (x : Reg) (nn : Byte)
  /-- 7xnn `ADD Vx, nn` (R152). -/
  | addImm (x : Reg) (nn : Byte)
  /-- 8xy0 `LD Vx, Vy` (R153). -/
  | ldReg (x y : Reg)
  /-- 8xy1 `OR Vx, Vy` (R154). -/
  | orReg (x y : Reg)
  /-- 8xy2 `AND Vx, Vy` (R155). -/
  | andReg (x y : Reg)
  /-- 8xy3 `XOR Vx, Vy` (R156). -/
  | xorReg (x y : Reg)
  /-- 8xy4 `ADD Vx, Vy` (R157). -/
  | addReg (x y : Reg)
  /-- 8xy5 `SUB Vx, Vy` (R158). -/
  | sub (x y : Reg)
  /-- 8xy6 `SHR Vx` (R159); `y` is decoded and ignored. -/
  | shr (x y : Reg)
  /-- 8xy7 `SUBN Vx, Vy` (R160). -/
  | subn (x y : Reg)
  /-- 8xyE `SHL Vx` (R161); `y` is decoded and ignored. -/
  | shl (x y : Reg)
  /-- 9xy0 `SNE Vx, Vy` (R136). -/
  | sneReg (x y : Reg)
  /-- Annn `LD I, nnn` (R180). -/
  | ldI (nnn : BitVec 12)
  /-- Bnnn `JP V0, nnn` (R138). -/
  | jpV0 (nnn : BitVec 12)
  /-- Cxnn `RND Vx, nn` (R162). -/
  | rnd (x : Reg) (nn : Byte)
  /-- Dxyn `DRW Vx, Vy, n` (R201). -/
  | drw (x y : Reg) (n : BitVec 4)
  /-- Ex9E `SKP Vx` (R220). -/
  | skp (x : Reg)
  /-- ExA1 `SKNP Vx` (R221). -/
  | sknp (x : Reg)
  /-- Fx07 `LD Vx, DT` (R222). -/
  | ldVxDt (x : Reg)
  /-- Fx0A `LD Vx, K` (R223). -/
  | ldVxK (x : Reg)
  /-- Fx15 `LD DT, Vx` (R224). -/
  | ldDtVx (x : Reg)
  /-- Fx18 `LD ST, Vx` (R225). -/
  | ldStVx (x : Reg)
  /-- Fx1E `ADD I, Vx` (R181). -/
  | addI (x : Reg)
  /-- Fx29 `LD F, Vx` (R182). -/
  | ldF (x : Reg)
  /-- Fx33 `LD B, Vx` (R184). -/
  | ldB (x : Reg)
  /-- Fx55 `LD [I], Vx` (R185). -/
  | storeRegs (x : Reg)
  /-- Fx65 `LD Vx, [I]` (R186). -/
  | loadRegs (x : Reg)
  /-- A word that matches no other row: a no-op (R75, R76). -/
  | unmapped (w : Word)
  deriving DecidableEq, Repr

end Sys2Proof
end

