-- ==== Sys2Proof/Decode.lean ====
section
/-! DEFINITION. The decoder (rules R71, R72, R74, R108), the opcode table of rule R72 as data, the encoder, and the
host's reading of a table word. -/

namespace Sys2Proof

/-! ## Fields (rule R71) -/

/-- `x = word[11:8]`. -/
def fieldX (w : Word) : Reg := (w.extractLsb' 8 4).toFin

/-- `y = word[7:4]`. -/
def fieldY (w : Word) : Reg := (w.extractLsb' 4 4).toFin

/-- `n = word[3:0]`. -/
def fieldN (w : Word) : BitVec 4 := w.extractLsb' 0 4

/-- `nn = word[7:0]`. -/
def fieldNN (w : Word) : Byte := w.extractLsb' 0 8

/-- `nnn = word[11:0]`. -/
def fieldNNN (w : Word) : BitVec 12 := w.extractLsb' 0 12

/-- `word[15:12]`, the opcode family. -/
def family (w : Word) : BitVec 4 := w.extractLsb' 12 4

/-! ## Decoder, by family (rule R74) -/

/-- Family 0: 00E0 and 00EE only. -/
def decode0 (w : Word) : Instr :=
  if w = 0x00E0 then .cls else if w = 0x00EE then .ret else .unmapped w

/-- Family 5: a skip only when `n = 0`. -/
def decode5 (w : Word) : Instr :=
  if fieldN w = 0 then .seReg (fieldX w) (fieldY w) else .unmapped w

/-- Family 8: the register-register operations, selected by `n`. -/
def decode8 (w : Word) : Instr :=
  match (fieldN w).toNat with
  | 0x0 => .ldReg (fieldX w) (fieldY w)
  | 0x1 => .orReg (fieldX w) (fieldY w)
  | 0x2 => .andReg (fieldX w) (fieldY w)
  | 0x3 => .xorReg (fieldX w) (fieldY w)
  | 0x4 => .addReg (fieldX w) (fieldY w)
  | 0x5 => .sub (fieldX w) (fieldY w)
  | 0x6 => .shr (fieldX w) (fieldY w)
  | 0x7 => .subn (fieldX w) (fieldY w)
  | 0xE => .shl (fieldX w) (fieldY w)
  | _   => .unmapped w

/-- Family 9: a skip only when `n = 0`. -/
def decode9 (w : Word) : Instr :=
  if fieldN w = 0 then .sneReg (fieldX w) (fieldY w) else .unmapped w

/-- Family E: the key skips, selected by `nn`. -/
def decodeE (w : Word) : Instr :=
  match (fieldNN w).toNat with
  | 0x9E => .skp (fieldX w)
  | 0xA1 => .sknp (fieldX w)
  | _    => .unmapped w

/-- Family F: timers, key wait, `I` arithmetic and memory transfer, selected by `nn`. -/
def decodeF (w : Word) : Instr :=
  match (fieldNN w).toNat with
  | 0x07 => .ldVxDt (fieldX w)
  | 0x0A => .ldVxK (fieldX w)
  | 0x15 => .ldDtVx (fieldX w)
  | 0x18 => .ldStVx (fieldX w)
  | 0x1E => .addI (fieldX w)
  | 0x29 => .ldF (fieldX w)
  | 0x33 => .ldB (fieldX w)
  | 0x55 => .storeRegs (fieldX w)
  | 0x65 => .loadRegs (fieldX w)
  | _    => .unmapped w

/-- `Decode(word)` (rule R108), total over all words (rule R77). -/
def decode (w : Word) : Instr :=
  match (family w).toNat with
  | 0x0 => decode0 w
  | 0x1 => .jp (fieldNNN w)
  | 0x2 => .call (fieldNNN w)
  | 0x3 => .seImm (fieldX w) (fieldNN w)
  | 0x4 => .sneImm (fieldX w) (fieldNN w)
  | 0x5 => decode5 w
  | 0x6 => .ldImm (fieldX w) (fieldNN w)
  | 0x7 => .addImm (fieldX w) (fieldNN w)
  | 0x8 => decode8 w
  | 0x9 => decode9 w
  | 0xA => .ldI (fieldNNN w)
  | 0xB => .jpV0 (fieldNNN w)
  | 0xC => .rnd (fieldX w) (fieldNN w)
  | 0xD => .drw (fieldX w) (fieldY w) (fieldN w)
  | 0xE => decodeE w
  | _   => decodeF w   -- 0xF, the only value left

/-- Why a list of bytes holds no instruction. No word is refused (rule R77); only a missing byte is. -/
inductive DecodeError where
  /-- Fewer than the two bytes of an instruction (rule R70). -/
  | truncated
  deriving DecidableEq, Repr

/-- The first instruction of a list of bytes, and the rest of the list. The byte at the lower address is the high
half of the word (rule R55). -/
def decodeBytes : List Byte → Except DecodeError (Instr × List Byte)
  | hi :: lo :: rest => .ok (decode (hi ++ lo), rest)
  | _                => .error .truncated

/-! ## The opcode table of rule R72 -/

/-- One row of the table: the word is of this row when `word &&& mask = pattern`, and is then the instruction `build`
gives from the word's fields. -/
structure OpcodeRow where
  pattern : Word
  mask    : Word
  build   : Word → Instr

/-- Rows 1 to 9 of rule R72. -/
def opcodeRows1to9 : List OpcodeRow :=
  [ ⟨0x00E0, 0xFFFF, fun _ => .cls⟩,
    ⟨0x00EE, 0xFFFF, fun _ => .ret⟩,
    ⟨0x1000, 0xF000, fun w => .jp (fieldNNN w)⟩,
    ⟨0x2000, 0xF000, fun w => .call (fieldNNN w)⟩,
    ⟨0x3000, 0xF000, fun w => .seImm (fieldX w) (fieldNN w)⟩,
    ⟨0x4000, 0xF000, fun w => .sneImm (fieldX w) (fieldNN w)⟩,
    ⟨0x5000, 0xF00F, fun w => .seReg (fieldX w) (fieldY w)⟩,
    ⟨0x6000, 0xF000, fun w => .ldImm (fieldX w) (fieldNN w)⟩,
    ⟨0x7000, 0xF000, fun w => .addImm (fieldX w) (fieldNN w)⟩ ]

/-- Rows 10 to 18 of rule R72. -/
def opcodeRows10to18 : List OpcodeRow :=
  [ ⟨0x8000, 0xF00F, fun w => .ldReg (fieldX w) (fieldY w)⟩,
    ⟨0x8001, 0xF00F, fun w => .orReg (fieldX w) (fieldY w)⟩,
    ⟨0x8002, 0xF00F, fun w => .andReg (fieldX w) (fieldY w)⟩,
    ⟨0x8003, 0xF00F, fun w => .xorReg (fieldX w) (fieldY w)⟩,
    ⟨0x8004, 0xF00F, fun w => .addReg (fieldX w) (fieldY w)⟩,
    ⟨0x8005, 0xF00F, fun w => .sub (fieldX w) (fieldY w)⟩,
    ⟨0x8006, 0xF00F, fun w => .shr (fieldX w) (fieldY w)⟩,
    ⟨0x8007, 0xF00F, fun w => .subn (fieldX w) (fieldY w)⟩,
    ⟨0x800E, 0xF00F, fun w => .shl (fieldX w) (fieldY w)⟩ ]

/-- Rows 19 to 25 of rule R72. -/
def opcodeRows19to25 : List OpcodeRow :=
  [ ⟨0x9000, 0xF00F, fun w => .sneReg (fieldX w) (fieldY w)⟩,
    ⟨0xA000, 0xF000, fun w => .ldI (fieldNNN w)⟩,
    ⟨0xB000, 0xF000, fun w => .jpV0 (fieldNNN w)⟩,
    ⟨0xC000, 0xF000, fun w => .rnd (fieldX w) (fieldNN w)⟩,
    ⟨0xD000, 0xF000, fun w => .drw (fieldX w) (fieldY w) (fieldN w)⟩,
    ⟨0xE09E, 0xF0FF, fun w => .skp (fieldX w)⟩,
    ⟨0xE0A1, 0xF0FF, fun w => .sknp (fieldX w)⟩ ]

/-- Rows 26 to 34 of rule R72. -/
def opcodeRows26to34 : List OpcodeRow :=
  [ ⟨0xF007, 0xF0FF, fun w => .ldVxDt (fieldX w)⟩,
    ⟨0xF00A, 0xF0FF, fun w => .ldVxK (fieldX w)⟩,
    ⟨0xF015, 0xF0FF, fun w => .ldDtVx (fieldX w)⟩,
    ⟨0xF018, 0xF0FF, fun w => .ldStVx (fieldX w)⟩,
    ⟨0xF01E, 0xF0FF, fun w => .addI (fieldX w)⟩,
    ⟨0xF029, 0xF0FF, fun w => .ldF (fieldX w)⟩,
    ⟨0xF033, 0xF0FF, fun w => .ldB (fieldX w)⟩,
    ⟨0xF055, 0xF0FF, fun w => .storeRegs (fieldX w)⟩,
    ⟨0xF065, 0xF0FF, fun w => .loadRegs (fieldX w)⟩ ]

/-- The 34 rows of rule R72, in its order. -/
def opcodeTable : List OpcodeRow :=
  opcodeRows1to9 ++ opcodeRows10to18 ++ opcodeRows19to25 ++ opcodeRows26to34

/-- The word is of this row: `(word & mask) == match` (rule R72). -/
abbrev OpcodeRow.Matches (r : OpcodeRow) (w : Word) : Prop := w &&& r.mask = r.pattern

/-- The word matches no row of the table (rule R75). -/
abbrev UnmappedWord (w : Word) : Prop := ∀ r ∈ opcodeTable, ¬ r.Matches w

/-! ## Encoder (the encodings of rule R72) -/

/-- A word from its four hex digits, the most significant first. -/
def ofDigits (a : BitVec 4) (b c : Reg) (d : BitVec 4) : Word :=
  a ++ (BitVec.ofFin b : BitVec 4) ++ (BitVec.ofFin c : BitVec 4) ++ d

/-- Format `NNN`: family and a 12-bit address. -/
def ofNNN (f : BitVec 4) (nnn : BitVec 12) : Word := f ++ nnn

/-- Formats `XNN` and `X`: family, register and an 8-bit immediate or selector. -/
def ofXNN (f : BitVec 4) (x : Reg) (nn : Byte) : Word := f ++ (BitVec.ofFin x : BitVec 4) ++ nn

/-- The word of an instruction. -/
def encode : Instr → Word
  | .cls          => 0x00E0
  | .ret          => 0x00EE
  | .jp nnn       => ofNNN 0x1 nnn
  | .call nnn     => ofNNN 0x2 nnn
  | .seImm x nn   => ofXNN 0x3 x nn
  | .sneImm x nn  => ofXNN 0x4 x nn
  | .seReg x y    => ofDigits 0x5 x y 0x0
  | .ldImm x nn   => ofXNN 0x6 x nn
  | .addImm x nn  => ofXNN 0x7 x nn
  | .ldReg x y    => ofDigits 0x8 x y 0x0
  | .orReg x y    => ofDigits 0x8 x y 0x1
  | .andReg x y   => ofDigits 0x8 x y 0x2
  | .xorReg x y   => ofDigits 0x8 x y 0x3
  | .addReg x y   => ofDigits 0x8 x y 0x4
  | .sub x y      => ofDigits 0x8 x y 0x5
  | .shr x y      => ofDigits 0x8 x y 0x6
  | .subn x y     => ofDigits 0x8 x y 0x7
  | .shl x y      => ofDigits 0x8 x y 0xE
  | .sneReg x y   => ofDigits 0x9 x y 0x0
  | .ldI nnn      => ofNNN 0xA nnn
  | .jpV0 nnn     => ofNNN 0xB nnn
  | .rnd x nn     => ofXNN 0xC x nn
  | .drw x y n    => ofDigits 0xD x y n
  | .skp x        => ofXNN 0xE x 0x9E
  | .sknp x       => ofXNN 0xE x 0xA1
  | .ldVxDt x     => ofXNN 0xF x 0x07
  | .ldVxK x      => ofXNN 0xF x 0x0A
  | .ldDtVx x     => ofXNN 0xF x 0x15
  | .ldStVx x     => ofXNN 0xF x 0x18
  | .addI x       => ofXNN 0xF x 0x1E
  | .ldF x        => ofXNN 0xF x 0x29
  | .ldB x        => ofXNN 0xF x 0x33
  | .storeRegs x  => ofXNN 0xF x 0x55
  | .loadRegs x   => ofXNN 0xF x 0x65
  | .unmapped w   => w

/-- The instruction's two bytes as memory holds them, the high half first (rule R55). -/
def encodeBytes (i : Instr) : List Byte := [(encode i).extractLsb' 8 8, (encode i).extractLsb' 0 8]

/-- The instruction word of the host's number `w`, whose bits above `nbits` are zero. -/
def tableWord (nbits w : Nat) : Word := BitVec.ofNat 16 (w % 2 ^ nbits)

/-- The instruction the decoder reads from a table word: the word laid out as two bytes, the high half at the lower
address, and decoded. Its whole text is the host's fixed interface. -/
def decodeTableWord (nbits w : Nat) : Option Instr :=
  match decodeBytes [(tableWord nbits w).extractLsb' 8 8, (tableWord nbits w).extractLsb' 0 8] with
  | .ok (i, _) => some i
  | .error _   => none

end Sys2Proof
end

