-- ==== Sys2Proof/Machine/Cycle.lean ====
section
/-! DEFINITION. The phases of one host call that surround the instruction: flags, timer gate, instruction gate, fetch
and key event (40_cycle_engine.md), and placing a word where the next step runs it. -/

namespace Sys2Proof.Machine

/-! ## Gates and timers (rules R102 to R105, R110) -/

/-- `elapsed(now, t)` (rule R102): 0 when `now` lies before `t`. -/
def elapsed (now t : Nat) : Nat := now - t

/-- `TimerDue(now)` (rule R102), strict. -/
abbrev TimerDue (s : State) (now : Nat) : Prop :=
  s.cfg.ticksPerSecond < elapsed now s.tTimer * Config.timerHz

/-- `InstrDue(now)` (rule R105), strict. -/
abbrev InstrDue (s : State) (now : Nat) : Prop :=
  s.cfg.ticksPerSecond < elapsed now s.tInstr * s.cfg.ips

/-- A timer one tick later: toward zero, never below (rule R103). -/
def tickDown (t : Byte) : Byte := if t = 0 then 0 else t - 1

/-- The start of a step: its inputs are sampled and the three flags cleared (rule R110). -/
def beginStep (input : StepInput) (s : State) : State :=
  { s with input := input, clearReq := false, redrawReq := false, tone := false }

/-- A timer tick (rules R102 to R104). -/
def timerTick (now : Nat) (s : State) : State :=
  { s with tTimer := now, dt := tickDown s.dt, st := tickDown s.st, tone := tickDown s.st != 0 }

/-- The step up to its instruction gate: flags cleared, and the timers ticked if their gate fires (rule R101). -/
def timerPhase (input : StepInput) (s : State) : State :=
  if TimerDue s input.now then timerTick input.now (beginStep input s) else beginStep input s

/-! ## Fetch (rules R55, R106, R107) -/

/-- The fetch would read outside memory: `pc + 1 >= 4096` (rule R106). -/
abbrev FetchFails (s : State) : Prop := Config.memSize ≤ s.pc.toNat + 1

/-- `{MEM[a], MEM[a+1]}` (rule R55). -/
def wordAt (s : State) (a : Nat) : Word := s.readByte a ++ s.readByte (a + 1)

/-! ## Key event (rule R112) -/

/-- The host's answer to the key wait of `V[x]`. A key above 15 has no move (rule R256). -/
def keyCall (x : Reg) (e : KeyEvent) (s : State) : Host.Outcome State Fault Refusal :=
  match e with
  | .pressed k =>
    if k < 16 then .next { s.setV x (BitVec.ofNat 8 k) with run := .running } else .refused .keyOutOfRange
  | .cancelled => .next (raiseFatal .keyWaitCancelled s)

/-- A key wait's free answer as an event (log 1). -/
def freeKeyAnswer (draw : Nat) : KeyEvent :=
  match Config.freeKeyEvent draw with
  | some k => .pressed k.val
  | none => .cancelled

/-- A step's free inputs (log 1). -/
def freeStepInput (draw : Nat) : StepInput :=
  { now := Config.freeNow draw, keys := Config.freeKeys draw, rnd := Config.freeRnd draw }

/-! ## Placing an instruction (log 6) -/

/-- The first timestamp at which the instruction gate is open. -/
def firstDue (s : State) : Nat := s.tInstr + s.cfg.ticksPerSecond / s.cfg.ips + 1

/-- Where the next fetch reads, or the entry point when that fetch would fail. -/
def fetchAddress (s : State) : Word := if FetchFails s then BitVec.ofNat 16 Config.romBase else s.pc

/-- The state with a word stored where the next step fetches, and that step called at a time its gate is open. -/
def placeWord (s : State) (w : Word) : State :=
  let t : State := { s with
    pc := fetchAddress s
    run := .running
    pending := .step { s.input with now := firstDue s } :: s.pending }
  (t.writeByte t.pc.toNat (w.extractLsb' 8 8)).writeByte (t.pc.toNat + 1) (w.extractLsb' 0 8)

end Sys2Proof.Machine
end

