-- ==== Sys2Proof/Machine/Flags.lean ====
section
/-! DEFINITION. The values VF takes as a flag, and the order of its write (rules R150, R157 to R161, R204). -/

namespace Sys2Proof.Machine

/-- `[c]` as a byte (rule R9). -/
def flagByte (c : Bool) : Byte := if c then 1 else 0

/-- The carry of 8xy4 (rule R157): the exact sum exceeds 255. -/
def carryOf (a b : Byte) : Byte := flagByte (decide (255 < a.toNat + b.toNat))

/-- The flag of 8xy5 and 8xy7 (rules R158, R160): strictly greater, so equal operands give 0. -/
def greaterFlag (a b : Byte) : Byte := flagByte (decide (b.toNat < a.toNat))

/-- Bit k of a byte, as the flag of a shift (rules R159, R161). -/
def bitFlag (a : Byte) (k : Nat) : Byte := flagByte (a.getLsbD k)

/-- `WriteWithFlag(x, result, flag)` (rule R150). -/
def writeWithFlag (x : Reg) (result flag : Byte) (s : State) : State :=
  match s.cfg.vfDestOrder with
  | .resultWins => (s.setV vf flag).setV x result
  | .flagWins   => (s.setV x result).setV vf flag

end Sys2Proof.Machine
end

