-- ==== Sys2Proof/Machine/Alu.lean ====
section
/-! DEFINITION. Register loads, arithmetic and logic, and the random byte (42_registers_alu.md). Every source is read
from the state before the instruction (rules R14, R150). -/

namespace Sys2Proof.Machine

/-- 6xnn (R151). -/
def execLdImm (x : Reg) (nn : Byte) (s : State) : Host.Outcome State Fault Refusal :=
  .next (s.setV x nn)

/-- 7xnn (R152): wraps, and writes no flag. -/
def execAddImm (x : Reg) (nn : Byte) (s : State) : Host.Outcome State Fault Refusal :=
  .next (s.setV x (s.getV x + nn))

/-- 8xy0 (R153). -/
def execLdReg (x y : Reg) (s : State) : Host.Outcome State Fault Refusal :=
  .next (s.setV x (s.getV y))

/-- 8xy1 (R154): VF is not reset. -/
def execOrReg (x y : Reg) (s : State) : Host.Outcome State Fault Refusal :=
  .next (s.setV x (s.getV x ||| s.getV y))

/-- 8xy2 (R155). -/
def execAndReg (x y : Reg) (s : State) : Host.Outcome State Fault Refusal :=
  .next (s.setV x (s.getV x &&& s.getV y))

/-- 8xy3 (R156). -/
def execXorReg (x y : Reg) (s : State) : Host.Outcome State Fault Refusal :=
  .next (s.setV x (s.getV x ^^^ s.getV y))

/-- 8xy4 (R157). -/
def execAddReg (x y : Reg) (s : State) : Host.Outcome State Fault Refusal :=
  .next (writeWithFlag x (s.getV x + s.getV y) (carryOf (s.getV x) (s.getV y)) s)

/-- 8xy5 (R158). -/
def execSub (x y : Reg) (s : State) : Host.Outcome State Fault Refusal :=
  .next (writeWithFlag x (s.getV x - s.getV y) (greaterFlag (s.getV x) (s.getV y)) s)

/-- 8xy6 (R159): `Vy` is not read. -/
def execShr (x _y : Reg) (s : State) : Host.Outcome State Fault Refusal :=
  .next (writeWithFlag x (s.getV x >>> 1) (bitFlag (s.getV x) 0) s)

/-- 8xy7 (R160). -/
def execSubn (x y : Reg) (s : State) : Host.Outcome State Fault Refusal :=
  .next (writeWithFlag x (s.getV y - s.getV x) (greaterFlag (s.getV y) (s.getV x)) s)

/-- 8xyE (R161): `Vy` is not read. -/
def execShl (x _y : Reg) (s : State) : Host.Outcome State Fault Refusal :=
  .next (writeWithFlag x (s.getV x <<< 1) (bitFlag (s.getV x) 7) s)

/-- Cxnn (R162): the random byte is the step's free input. -/
def execRnd (x : Reg) (nn : Byte) (s : State) : Host.Outcome State Fault Refusal :=
  .next (s.setV x (nn &&& s.input.rnd))

end Sys2Proof.Machine
end

