-- ==== Sys2Proof/Machine/Operands.lean ====
section
/-! DEFINITION. The operand forms: widened addresses, decimal digits, the I-relative range check, the key query and
the sprite's geometry (rules R73, R183, R202, R203, 45_timers_keys.md section 1). -/

namespace Sys2Proof.Machine

/-- `zext_16(nnn)` (rule R73). -/
def address (nnn : BitVec 12) : Word := nnn.setWidth 16

/-- `zext_16(v)` of a byte. -/
def widen (b : Byte) : Word := b.setWidth 16

/-- The hundreds, tens and ones digits of a byte (rule R184). -/
def bcdDigits (b : Byte) : List Byte := [b / 100, b / 10 % 10, b % 10]

/-- `V[k]` for the registers 0 to x (rule R185). -/
def regBytes (s : State) (x : Reg) : List Byte := (State.regsUpTo x).map s.getV

/-- `CheckRange(h)` fails: the highest address is outside memory and the policy is `Fatal` (rule R183). -/
abbrev RangeFails (s : State) (h : Nat) : Prop :=
  Config.memSize ≤ s.i.toNat + h ∧ s.cfg.memOobPolicy = .fatal

/-- `KeyDown(v)` (45_timers_keys.md section 1). -/
def keyDown (s : State) (v : Byte) : Bool :=
  if v.toNat ≤ 15 then s.input.keys.getLsbD v.toNat
  else match s.cfg.keyRangePolicy with
    | .notDown   => false
    | .lowNibble => s.input.keys.getLsbD (v.toNat % 16)

/-! ## Sprite geometry (rules R201 to R203) -/

/-- `xpos = Vx mod FB_W`: only the origin wraps (rule R202). -/
def spriteX (cfg : Config) (vx : Byte) : Nat := vx.toNat % cfg.fbW

/-- `ypos = Vy mod FB_H` (rule R202). -/
def spriteY (cfg : Config) (vy : Byte) : Nat := vy.toNat % cfg.fbH

/-- The rows that fall on the screen (rule R203). -/
def spriteRows (cfg : Config) (ypos : Nat) (n : BitVec 4) : Nat := min n.toNat (cfg.fbH - ypos)

/-- The cells of one screen row that the set bits of a sprite byte hit, MSB first. Bits past the right edge are
dropped (rule R203). -/
def rowCells (cfg : Config) (xpos row : Nat) (sprite : Byte) : List Nat :=
  [0, 1, 2, 3, 4, 5, 6, 7].filterMap fun b =>
    if xpos + b < cfg.fbW ∧ sprite.getLsbD (7 - b) then some (row * cfg.fbW + (xpos + b)) else none

/-- The cells that a sprite of `rows` rows hits, row by row; row r's byte is read at `Addr(I + r)`. -/
def spriteCells (s : State) (xpos ypos rows : Nat) : List Nat :=
  (List.range rows).flatMap fun r =>
    rowCells s.cfg xpos (ypos + r) (s.readByte (State.addr (s.i.toNat + r)))

end Sys2Proof.Machine
end

