-- ==== Sys2Proof/Machine/ControlFlow.lean ====
section
/-! DEFINITION. Return, jumps, call and skips (41_control_flow.md). Each meaning runs after the fetch's advance: `pc`
is the instruction's address plus 2 (rule R107). -/

namespace Sys2Proof.Machine

/-- 00EE (R130). -/
def execRet (s : State) : Host.Outcome State Fault Refusal :=
  if s.sp = 0 then .next (raiseFatal .stackUnderflow s)
  else .next (s.setPc s.stackTop).pop

/-- 1nnn (R131). -/
def execJp (nnn : BitVec 12) (s : State) : Host.Outcome State Fault Refusal :=
  .next (s.setPc (address nnn))

/-- 2nnn (R132): fatal when the push would need slot `STACK_SIZE`. -/
def execCall (nnn : BitVec 12) (s : State) : Host.Outcome State Fault Refusal :=
  if s.cfg.stackSize ≤ s.sp + 1 then .next (raiseFatal .stackOverflow s)
  else .next ((s.push s.pc).setPc (address nnn))

/-- 3xnn (R133). -/
def execSeImm (x : Reg) (nn : Byte) (s : State) : Host.Outcome State Fault Refusal :=
  .next (State.skipIf (s.getV x == nn) s)

/-- 4xnn (R134). -/
def execSneImm (x : Reg) (nn : Byte) (s : State) : Host.Outcome State Fault Refusal :=
  .next (State.skipIf (s.getV x != nn) s)

/-- 5xy0 (R135). -/
def execSeReg (x y : Reg) (s : State) : Host.Outcome State Fault Refusal :=
  .next (State.skipIf (s.getV x == s.getV y) s)

/-- 9xy0 (R136). -/
def execSneReg (x y : Reg) (s : State) : Host.Outcome State Fault Refusal :=
  .next (State.skipIf (s.getV x != s.getV y) s)

/-- Bnnn (R138): the sum is not masked; the offset register is always V0. -/
def execJpV0 (nnn : BitVec 12) (s : State) : Host.Outcome State Fault Refusal :=
  .next (s.setPc (address nnn + widen (s.getV 0)))

end Sys2Proof.Machine
end

