-- ==== Sys2Proof/Machine/Display.lean ====
section
/-! DEFINITION. Clearing the screen and drawing a sprite (44_display.md). -/

namespace Sys2Proof.Machine

/-- 00E0 (R200). -/
def execCls (s : State) : Host.Outcome State Fault Refusal :=
  .next { s with fb := [], clearReq := true }

/-- The drawing of rule R201 once the range check has passed: VF becomes the collision flag (R204), `REDRAW_REQ` is
set unconditionally (R205). -/
def drawSprite (xpos ypos rows : Nat) (s : State) : State :=
  { s.setV vf (flagByte (s.fb.xorCells (spriteCells s xpos ypos rows)).2) with
    fb := (s.fb.xorCells (spriteCells s xpos ypos rows)).1
    redrawReq := true }

/-- Dxyn (R201). The coordinates are read before VF is written (R150); a row off the bottom is neither drawn nor read
(R203), so it takes no part in the range check. -/
def execDrw (x y : Reg) (n : BitVec 4) (s : State) : Host.Outcome State Fault Refusal :=
  let xpos := spriteX s.cfg (s.getV x)
  let ypos := spriteY s.cfg (s.getV y)
  let rows := spriteRows s.cfg ypos n
  if 0 < rows ∧ RangeFails s (rows - 1) then .next (raiseFatal .memoryOutOfBounds s)
  else .next (drawSprite xpos ypos rows s)

end Sys2Proof.Machine
end

