-- ==== Sys2Proof/Machine/IndexMemory.lean ====
section
/-! DEFINITION. Setting and moving `I`, and the memory transfers through it (43_index_memory.md). None of them
changes `I` as a side effect (rule R26). -/

namespace Sys2Proof.Machine

/-- Annn (R180). -/
def execLdI (nnn : BitVec 12) (s : State) : Host.Outcome State Fault Refusal :=
  .next { s with i := address nnn }

/-- Fx1E (R181): modulo 65536, no flag. -/
def execAddI (x : Reg) (s : State) : Host.Outcome State Fault Refusal :=
  .next { s with i := s.i + widen (s.getV x) }

/-- Fx29 (R182): Vx is not masked to a nibble. -/
def execLdF (x : Reg) (s : State) : Host.Outcome State Fault Refusal :=
  .next { s with i := widen (s.getV x) * 5 }

/-- Fx33 (R184). -/
def execLdB (x : Reg) (s : State) : Host.Outcome State Fault Refusal :=
  if RangeFails s 2 then .next (raiseFatal .memoryOutOfBounds s)
  else .next (s.storeBytes s.i.toNat (bcdDigits (s.getV x)))

/-- Fx55 (R185). -/
def execStoreRegs (x : Reg) (s : State) : Host.Outcome State Fault Refusal :=
  if RangeFails s x.val then .next (raiseFatal .memoryOutOfBounds s)
  else .next (s.storeBytes s.i.toNat (regBytes s x))

/-- Fx65 (R186). -/
def execLoadRegs (x : Reg) (s : State) : Host.Outcome State Fault Refusal :=
  if RangeFails s x.val then .next (raiseFatal .memoryOutOfBounds s)
  else .next (State.loadFrom s.i.toNat (State.regsUpTo x) s)

end Sys2Proof.Machine
end

