-- ==== Sys2Proof/Machine/TimersKeys.lean ====
section
/-! DEFINITION. Key skips, the key wait and the timer registers (45_timers_keys.md), and the unmapped no-op
(30_encoding.md). -/

namespace Sys2Proof.Machine

/-- Ex9E (R220). -/
def execSkp (x : Reg) (s : State) : Host.Outcome State Fault Refusal :=
  .next (State.skipIf (keyDown s (s.getV x)) s)

/-- ExA1 (R221). -/
def execSknp (x : Reg) (s : State) : Host.Outcome State Fault Refusal :=
  .next (State.skipIf (!keyDown s (s.getV x)) s)

/-- Fx07 (R222). -/
def execLdVxDt (x : Reg) (s : State) : Host.Outcome State Fault Refusal :=
  .next (s.setV x s.dt)

/-- Fx0A (R223): the wait begins; the key event of rule R112 completes it. -/
def execLdVxK (x : Reg) (s : State) : Host.Outcome State Fault Refusal :=
  .next { s with run := .awaitKey x }

/-- Fx15 (R224). -/
def execLdDtVx (x : Reg) (s : State) : Host.Outcome State Fault Refusal :=
  .next { s with dt := s.getV x }

/-- Fx18 (R225): `TONE` is not written. -/
def execLdStVx (x : Reg) (s : State) : Host.Outcome State Fault Refusal :=
  .next { s with st := s.getV x }

/-- An unmapped word (R76): nothing, whatever the word. -/
def execUnmapped (_w : Word) (s : State) : Host.Outcome State Fault Refusal :=
  .next s

end Sys2Proof.Machine
end

