-- ==== Sys2Proof/Machine/Engine.lean ====
section
/-! DEFINITION. The two transitions of rule R100 and the choice between them. -/

namespace Sys2Proof.Machine

/-- The instruction tick of a step whose gate has fired (rules R101, R105 to R109). -/
def instrTick (now : Nat) (s : State) : Host.Outcome State Fault Refusal :=
  if FetchFails s then .next (raiseFatal .programOutOfBounds { s with tInstr := now })
  else exec (decode (wordAt s s.pc.toNat)) (State.advancePc { s with tInstr := now })

/-- `Step(input)` (rule R101). -/
def stepCall (input : StepInput) (s : State) : Host.Outcome State Fault Refusal :=
  if InstrDue s input.now then instrTick input.now (timerPhase input s)
  else .next (timerPhase input s)

/-- One host call (rule R100): the oldest call that is given, else a call with free inputs (log 1). A call that is
not enabled has no move (log 4), and a halted machine none at all (rule R240). -/
def hostStep (s : State) : Host.Outcome State Fault Refusal :=
  match s.run with
  | .halted cause => .fault (.halted cause)
  | .running =>
    match s.pending with
    | .step input :: rest => stepCall input { s with pending := rest }
    | .keyEvent _ :: _ => .refused .keyEventWhileRunning
    | [] => stepCall (freeStepInput s.draws) { s with draws := s.draws + 1 }
  | .awaitKey x =>
    match s.pending with
    | .keyEvent e :: rest => keyCall x e { s with pending := rest }
    | .step _ :: _ => .refused .stepWhileAwaitingKey
    | [] => keyCall x (freeKeyAnswer s.draws) { s with draws := s.draws + 1 }

end Sys2Proof.Machine
end

