-- ==== Sys2Proof/Machine/Step.lean ====
section
/-! DEFINITION. One step of the machine, and the host's placing of an instruction. -/

namespace Sys2Proof.Machine

/-- One step: one call of the host (rule R100). -/
def step (s : State) : Host.Outcome State Fault Refusal := hostStep s

/-- The state with a table word stored where the next step fetches, so that this step runs it (log 6). -/
def State.withFetchWord (s : State) (nbits w : Nat) : State := placeWord s (tableWord nbits w)

end Sys2Proof.Machine
end

