-- ==== Sys2Proof/Safety.lean ====
section
/-! DEFINITION. What claims are stated in: the invariant of every reachable state, and frames. -/

namespace Sys2Proof.Machine

/-- The invariant: what holds of every state that a run from construction reaches. -/
structure State.Inv (s : State) : Prop where
  /-- The parameters lie in their ranges (rule R6; log 12). -/
  cfg        : s.cfg.WF
  /-- Memory has its canonical form. -/
  mem        : s.mem.wf s.cfg.font
  /-- Every lit cell is a cell of the framebuffer, and the list is canonical (rule R37). -/
  fb         : Framebuffer.wf (s.cfg.fbW * s.cfg.fbH) s.fb
  /-- The stack has `STACK_SIZE` slots (rule R31). -/
  stack_size : s.stack.length = s.cfg.stackSize
  /-- SP is in 0 to STACK_SIZE - 1 (rule R32). -/
  sp_lt      : s.sp < s.cfg.stackSize
  /-- A pushed return address is at most 0x1000 (rule R29). -/
  slots_le   : ∀ w ∈ s.stack, w.toNat ≤ 0x1000
  /-- pc is at most 0x10FE (rule R29). -/
  pc_le      : s.pc.toNat ≤ 0x10FE

/-- Every byte of memory reads as before, but those at the addresses `p` holds of. -/
def MemoryKeptBut (p : Nat → Prop) (s t : State) : Prop := ∀ a, ¬ p a → t.readByte a = s.readByte a

/-- Every byte of memory reads as before. -/
def MemoryKept (s t : State) : Prop := ∀ a, t.readByte a = s.readByte a

/-- Only registers of the list differ: every other register, every byte of memory and every other element of the
state is as before. -/
def OnlyRegsChange (rs : List Reg) (s t : State) : Prop :=
  t = { s with v := t.v } ∧ (∀ r, r ∉ rs → t.getV r = s.getV r) ∧ MemoryKept s t

/-- Only pc differs: every register, every byte of memory and every other element of the state is as before. -/
def OnlyPcChanges (s t : State) : Prop :=
  t = { s with pc := t.pc } ∧ (∀ r, t.getV r = s.getV r) ∧ MemoryKept s t

/-- Only `I` differs: every register, every byte of memory and every other element of the state is as before. -/
def OnlyIndexChanges (s t : State) : Prop :=
  t = { s with i := t.i } ∧ (∀ r, t.getV r = s.getV r) ∧ MemoryKept s t

/-- Only memory differs, and there only the bytes at the addresses `p` holds of. -/
def OnlyBytesChange (p : Nat → Prop) (s t : State) : Prop :=
  t = { s with mem := t.mem } ∧ (∀ r, t.getV r = s.getV r) ∧ MemoryKeptBut p s t

/-- Every word that matches the mask and pattern decodes to the instruction `build` gives from its fields. -/
def EncodedBy (pattern mask : Word) (build : Word → Instr) : Prop := ∀ w : Word, w &&& mask = pattern → decode w = build w

/-- The registers an instruction may write, by the table of rule R24. Fx0A's register is written later, by the key event
that completes its wait (rule R112). -/
def writtenRegs : Instr → List Reg
  | .ldImm x _ | .addImm x _ | .ldReg x _ | .orReg x _ | .andReg x _ | .xorReg x _ | .rnd x _ | .ldVxDt x => [x]
  | .addReg x _ | .sub x _ | .shr x _ | .subn x _ | .shl x _ => [x, vf]
  | .drw _ _ _ => [vf]
  | .loadRegs x => State.regsUpTo x
  | .cls | .ret | .jp _ | .call _ | .seImm _ _ | .sneImm _ _ | .seReg _ _ | .sneReg _ _ | .ldI _ | .jpV0 _ => []
  | .skp _ | .sknp _ | .ldVxK _ | .ldDtVx _ | .ldStVx _ | .addI _ | .ldF _ | .ldB _ | .storeRegs _ | .unmapped _ => []

/-- The bit of Dxyn's sprite at a screen cell (rules R201 to R203): the origin wraps, rows and columns do not; bit 7
of a row's byte is its leftmost cell. -/
def spriteBit (s : State) (x y : Reg) (n : BitVec 4) (col row : Nat) : Bool :=
  decide ((s.getV x).toNat % s.cfg.fbW ≤ col ∧ col < (s.getV x).toNat % s.cfg.fbW + 8 ∧
    (s.getV y).toNat % s.cfg.fbH ≤ row ∧ row < (s.getV y).toNat % s.cfg.fbH + n.toNat) &&
  (s.readByte ((s.i.toNat + (row - (s.getV y).toNat % s.cfg.fbH)) % 4096)).getLsbD
    (7 - (col - (s.getV x).toNat % s.cfg.fbW))

/-- Every sprite row of Dxyn that falls on the screen has its byte inside memory, or the policy wraps. -/
def spriteReadable (s : State) (y : Reg) (n : BitVec 4) : Prop :=
  s.cfg.memOobPolicy = .wrap ∨
  ∀ r, r < n.toNat → (s.getV y).toNat % s.cfg.fbH + r < s.cfg.fbH → s.i.toNat + r < 4096

end Sys2Proof.Machine
end

