-- ==== Sys2Proof/Certificates/Slice0/Obligations.lean ====
section
/-! DEFINITION. The statements for the provers, from the numbered rules of spec/. A premise `s.mem.wf s.cfg.font`,
`Framebuffer.wf _ s.fb` or `s.Inv` is the invariant that StepKeepsInvariant and ResetMeetsInvariant state. Where a
statement rests on a choice the spec marks as its own (D<n> of 92_eei_decisions.md) or on a log entry, its docstring
names it. -/

open Sys2Proof Sys2Proof.Machine

/-! ## Encoding -/

/-- Decoding the encoding of a well-formed instruction gives it back, with every operand at every value. -/
def Obligations.DecodeOfEncodeIsIdentity : Prop := ∀ i : Instr, i.WF → decode (encode i) = i

/-- Every word is the encoding of the instruction it decodes to, and that instruction is well-formed: the decoder is
total and drops no bit (R77). -/
def Obligations.EncodeOfDecodeIsIdentity : Prop := ∀ w : Word, encode (decode w) = w ∧ (decode w).WF

/-- R71: the six fields are the source's expressions, for every word. -/
def Obligations.FieldsAreTheSourceExpressions : Prop :=
  ∀ w : Word,
    (family w).setWidth 16 <<< 12 = w &&& 0xF000 ∧
    ((fieldX w).val : Nat) = ((w >>> 8) &&& 0xF).toNat ∧
    ((fieldY w).val : Nat) = ((w >>> 4) &&& 0xF).toNat ∧
    (fieldN w).setWidth 16 = w &&& 0xF ∧
    (fieldNN w).setWidth 16 = w &&& 0xFF ∧
    (fieldNNN w).setWidth 16 = w &&& 0xFFF ∧
    fieldNNN w = (BitVec.ofFin (fieldX w) : BitVec 4) ++ fieldNN w ∧
    fieldNN w = (BitVec.ofFin (fieldY w) : BitVec 4) ++ fieldN w

/-- R108: the decoder selects the unique row of the opcode table whose mask and match fit, with the fields of the word,
and answers unmapped when none does. -/
def Obligations.DecodeSelectsTheUniqueTableRow : Prop :=
  ∀ w : Word,
    (∀ r ∈ opcodeTable, r.Matches w → decode w = r.build w) ∧
    ((∀ r ∈ opcodeTable, ¬ r.Matches w) → decode w = .unmapped w) ∧
    (∀ j k, (hj : j < opcodeTable.length) → (hk : k < opcodeTable.length) →
      opcodeTable[j].Matches w → opcodeTable[k].Matches w → j = k)

/-- Words written out from the patterns of R72 decode to their instructions, at least one of each opcode family (R16: the
top four bits), and words of the unmapped space to no-ops (R75; the spec's own D18 for 0x5121). -/
def Obligations.WordsDecodeToTheirInstructions : Prop :=
  decode 0x00E0 = .cls ∧ decode 0x00EE = .ret ∧ decode 0x1234 = .jp 0x234 ∧ decode 0x2300 = .call 0x300 ∧
  decode 0x332A = .seImm 3 0x2A ∧ decode 0x432A = .sneImm 3 0x2A ∧ decode 0x5120 = .seReg 1 2 ∧
  decode 0x6A42 = .ldImm 10 0x42 ∧ decode 0x7003 = .addImm 0 3 ∧ decode 0x8126 = .shr 1 2 ∧ decode 0x9120 = .sneReg 1 2 ∧
  decode 0xA2F0 = .ldI 0x2F0 ∧ decode 0xB300 = .jpV0 0x300 ∧ decode 0xC30F = .rnd 3 0x0F ∧ decode 0xD015 = .drw 0 1 5 ∧ decode 0xE5A1 = .sknp 5 ∧
  decode 0xF20A = .ldVxK 2 ∧ decode 0xF265 = .loadRegs 2 ∧ decode 0x0123 = .unmapped 0x0123 ∧
  decode 0x5121 = .unmapped 0x5121 ∧ decode 0x800F = .unmapped 0x800F

/-! ## The step -/

/-- A `Step` call whose instruction gate fires, with the fetch inside memory, is `exec` of the instruction that the two
bytes at pc decode to, big-endian, on the state after the timer phase with `T_INSTR` at `now` and pc advanced by 2
(R101, R105 to R109; D3). Where no call is given, the step is that of a call with free inputs (log 1). -/
def Obligations.StepRunsTheDecodedInstruction : Prop :=
  ∀ (s : State) (i : Instr), s.run = .running →
    (∀ input rest, s.pending = .step input :: rest → s.pc.toNat + 1 < 4096 →
      decode (s.readByte s.pc.toNat ++ s.readByte (s.pc.toNat + 1)) = i →
      s.cfg.ticksPerSecond < (input.now - s.tInstr) * s.cfg.ips →
      step s = exec i { timerPhase input { s with pending := rest } with tInstr := input.now, pc := s.pc + 2 }) ∧
    (s.pending = [] →
      step s = step { s with pending := [.step (freeStepInput s.draws)], draws := s.draws + 1 })

/-- A `Step` call whose instruction gate does not fire runs the timer phase and nothing else (R101, R105; D3). -/
def Obligations.StepWithoutInstructionTick : Prop :=
  ∀ (s : State) (input : StepInput) (rest : List HostCall), s.run = .running → s.pending = .step input :: rest →
    (input.now - s.tInstr) * s.cfg.ips ≤ s.cfg.ticksPerSecond →
    step s = .next (timerPhase input { s with pending := rest })

/-- R103: when the timer gate fires, DT and ST each decrease by 1 if nonzero and stay at 0 otherwise, once however much
time has elapsed. -/
def Obligations.TimerTickDecrementsBothTimersOnce : Prop :=
  ∀ (s : State) (input : StepInput), s.cfg.ticksPerSecond < (input.now - s.tTimer) * 60 →
    (s.dt ≠ 0 → (timerPhase input s).dt.toNat = s.dt.toNat - 1) ∧ (s.dt = 0 → (timerPhase input s).dt = 0) ∧
    (s.st ≠ 0 → (timerPhase input s).st.toNat = s.st.toNat - 1) ∧ (s.st = 0 → (timerPhase input s).st = 0)

/-- The timer phase whole: the inputs are sampled and the flags cleared; TONE is set exactly when the timers tick and
leave ST nonzero; `T_TIMER` becomes `now` exactly when they tick, at more than 1/60 s since `T_TIMER`; a `now` before
`T_TIMER` ticks nothing; nothing else changes (R102, R104, R110; the spec's own D2, D3, D20). -/
def Obligations.TimerPhaseChangesOnlyTimersAndFlags : Prop :=
  ∀ (s : State) (input : StepInput),
    (s.cfg.ticksPerSecond < (input.now - s.tTimer) * 60 →
      timerPhase input s = { s with
        input := input, clearReq := false, redrawReq := false, tTimer := input.now
        dt := (timerPhase input s).dt, st := (timerPhase input s).st
        tone := decide ((timerPhase input s).st ≠ 0) }) ∧
    ((input.now - s.tTimer) * 60 ≤ s.cfg.ticksPerSecond →
      timerPhase input s = { s with input := input, clearReq := false, redrawReq := false, tone := false }) ∧
    (input.now ≤ s.tTimer → (timerPhase input s).tTimer = s.tTimer ∧ (timerPhase input s).dt = s.dt)

/-- Two `Step` calls in a row: when the first ticks the timers and the second comes at most 1/60 s later, the second
does not tick them: its timer phase leaves DT and ST as they were and TONE 0, `T_TIMER` stays at the first call's time,
and the second step as a whole changes DT only where its word is an Fx15 and ST only where it is an Fx18 (R287; the
spec's own D3, D20). -/
def Obligations.NoSecondTimerTickWithinAPeriod : Prop :=
  ∀ (s t u : State) (a b : StepInput) (rest : List HostCall), s.run = .running →
    s.pending = .step a :: .step b :: rest → s.cfg.ticksPerSecond < (a.now - s.tTimer) * 60 →
    (b.now - a.now) * 60 ≤ s.cfg.ticksPerSecond → step s = .next t → t.run = .running → step t = .next u →
    t.tTimer = a.now ∧ u.tTimer = a.now ∧
    (timerPhase b { t with pending := rest }).dt = t.dt ∧ (timerPhase b { t with pending := rest }).st = t.st ∧
    (timerPhase b { t with pending := rest }).tone = false ∧ u.tone = false ∧
    (u.dt ≠ t.dt → ∃ x, decode (t.readByte t.pc.toNat ++ t.readByte (t.pc.toNat + 1)) = .ldDtVx x) ∧
    (u.st ≠ t.st → ∃ x, decode (t.readByte t.pc.toNat ++ t.readByte (t.pc.toNat + 1)) = .ldStVx x)

/-- A fetch at pc with `pc + 1 >= 4096` ends the run with `ProgramOutOfBounds`: pc stays, nothing is read, and only the
timer phase and `T_INSTR` have happened (R106, R246; the spec's own D9, D10, D30). -/
def Obligations.FetchOutOfBoundsHalts : Prop :=
  ∀ (s : State) (input : StepInput) (rest : List HostCall), s.run = .running → s.pending = .step input :: rest →
    s.cfg.ticksPerSecond < (input.now - s.tInstr) * s.cfg.ips → 4096 ≤ s.pc.toNat + 1 →
    ∃ t, step s = .next t ∧
      t = { timerPhase input { s with pending := rest } with
        tInstr := input.now, run := .halted .programOutOfBounds } ∧
      t.pc = s.pc ∧ t.faultAddress = some s.pc ∧ MemoryKept s t

/-- A halted machine has no transition (R240; the spec's own D30). -/
def Obligations.HaltedMachineHasNoTransition : Prop :=
  ∀ (s : State) (c : Cause), s.run = .halted c → step s = .fault (.halted c) ∧ s.stepResult = none

/-- The flags that a completed `Step` returns describe that step alone: CLEAR_REQ is set exactly when the step ran
00E0, REDRAW_REQ only when it ran Dxyn (R110). -/
def Obligations.StepFlagsDescribeOnlyThatStep : Prop :=
  ∀ (s t : State) (input : StepInput) (rest : List HostCall), s.run = .running → s.pending = .step input :: rest →
    step s = .next t →
    (t.clearReq = true ↔
      s.cfg.ticksPerSecond < (input.now - s.tInstr) * s.cfg.ips ∧ s.pc.toNat + 1 < 4096 ∧
        decode (s.readByte s.pc.toNat ++ s.readByte (s.pc.toNat + 1)) = .cls) ∧
    (t.redrawReq = true →
      s.cfg.ticksPerSecond < (input.now - s.tInstr) * s.cfg.ips ∧ s.pc.toNat + 1 < 4096 ∧
        ∃ x y n, decode (s.readByte s.pc.toNat ++ s.readByte (s.pc.toNat + 1)) = .drw x y n)

/-! ## The key wait -/

/-- Fx0A begins the wait and changes nothing else (R223; the spec's own D24). -/
def Obligations.KeyWaitBegins : Prop :=
  EncodedBy 0xF00A 0xF0FF (fun w => .ldVxK (fieldX w)) ∧
  ∀ (x : Reg) (s : State), ∃ t, exec (.ldVxK x) s = .next t ∧ t = { s with run := .awaitKey x } ∧ MemoryKept s t

/-- The host's `Pressed(k)` completes the wait: `V[x]` is k, RUN is Running, the blocked step's flags are returned, and
nothing else changes (R112; the spec's own D24, D32). -/
def Obligations.KeyPressCompletesTheWait : Prop :=
  ∀ (s : State) (x : Reg) (k : Nat) (rest : List HostCall), s.run = .awaitKey x →
    s.pending = .keyEvent (.pressed k) :: rest → k < 16 →
    ∃ t, step s = .next t ∧ (t.getV x).toNat = k ∧ (∀ r, r ≠ x → t.getV r = s.getV r) ∧
      t = { s with v := t.v, run := .running, pending := rest } ∧ MemoryKept s t ∧
      t.stepResult = some ⟨s.clearReq, s.redrawReq, s.tone⟩

/-- The host's `Cancelled` ends the run with `KeyWaitCancelled` and stores no key (R112, R246; the spec's own D24). -/
def Obligations.CancelledKeyWaitHalts : Prop :=
  ∀ (s : State) (x : Reg) (rest : List HostCall), s.run = .awaitKey x → s.pending = .keyEvent .cancelled :: rest →
    step s = .next { s with run := .halted .keyWaitCancelled, pending := rest }

/-- A wait with no given call ends with some key 0 to 15 or with a cancellation: a free answer (R100, R112; log 1). -/
def Obligations.FreeKeyAnswerIsAKeyOrACancellation : Prop :=
  ∀ (s : State) (x : Reg), s.run = .awaitKey x → s.pending = [] →
    ∃ t, step s = .next t ∧
      ((t.run = .running ∧ (t.getV x).toNat < 16) ∨ (t.run = .halted .keyWaitCancelled ∧ t.getV x = s.getV x))

/-- While the machine waits, a transition changes at most `V[x]`, RUN and the host's own queue: the timers, the gate
timestamps, the framebuffer and memory keep their values (R111, R259; the spec's own D24). -/
def Obligations.TimersAndFrameFreezeDuringKeyWait : Prop :=
  ∀ (s t : State) (x : Reg), s.run = .awaitKey x → step s = .next t →
    t = { s with v := t.v, run := t.run, pending := t.pending, draws := t.draws } ∧
    (∀ r, r ≠ x → t.getV r = s.getV r) ∧ MemoryKept s t

/-- A given call that is not enabled, and a key above 15, have no move (R100, R111, R256; log 4). -/
def Obligations.CallsThatAreNotEnabledHaveNoMove : Prop :=
  (∀ (s : State) (x : Reg) (input : StepInput) (rest : List HostCall), s.run = .awaitKey x →
    s.pending = .step input :: rest → step s = .refused .stepWhileAwaitingKey) ∧
  (∀ (s : State) (e : KeyEvent) (rest : List HostCall), s.run = .running →
    s.pending = .keyEvent e :: rest → step s = .refused .keyEventWhileRunning) ∧
  (∀ (s : State) (x : Reg) (k : Nat) (rest : List HostCall), s.run = .awaitKey x →
    s.pending = .keyEvent (.pressed k) :: rest → 16 ≤ k → step s = .refused .keyOutOfRange)

/-! ## Control flow -/

/-- 00EE: the innermost return address goes to pc and SP goes down by 1, the slot keeping its value; with SP = 0 the run
ends with `StackUnderflow` and nothing else changes (R130, R33; the spec's own D7). -/
def Obligations.ReturnPopsTheReturnAddress : Prop :=
  EncodedBy 0x00EE 0xFFFF (fun _ => .ret) ∧
  ∀ s : State,
    (∀ h : s.sp < s.stack.length, 0 < s.sp →
      ∃ t, exec .ret s = .next t ∧ t = { s with pc := s.stack[s.sp], sp := s.sp - 1 } ∧ MemoryKept s t) ∧
    (s.sp = 0 → exec .ret s = .next { s with run := .halted .stackUnderflow })

/-- R131: 1nnn sets pc to nnn and changes nothing else. -/
def Obligations.JumpSetsPc : Prop :=
  EncodedBy 0x1000 0xF000 (fun w => .jp (fieldNNN w)) ∧
  ∀ (nnn : BitVec 12) (s : State),
    ∃ t, exec (.jp nnn) s = .next t ∧ t.pc.toNat = nnn.toNat ∧ OnlyPcChanges s t

/-- 2nnn: SP goes up by 1, the new top is the pc after the fetch, and pc is nnn; with SP = STACK_SIZE - 1 the run ends
with `StackOverflow` and nothing else changes (R132; the spec's own D6). -/
def Obligations.CallPushesTheReturnAddress : Prop :=
  EncodedBy 0x2000 0xF000 (fun w => .call (fieldNNN w)) ∧
  ∀ (nnn : BitVec 12) (s : State), s.stack.length = s.cfg.stackSize →
    (s.sp + 1 < s.cfg.stackSize →
      ∃ t, exec (.call nnn) s = .next t ∧ t.sp = s.sp + 1 ∧ t.stack.length = s.cfg.stackSize ∧
        t.stack[s.sp + 1]? = some s.pc ∧ (∀ k, k ≠ s.sp + 1 → t.stack[k]? = s.stack[k]?) ∧
        t.pc.toNat = nnn.toNat ∧ t = { s with pc := t.pc, sp := t.sp, stack := t.stack } ∧ MemoryKept s t) ∧
    (s.sp + 1 = s.cfg.stackSize → exec (.call nnn) s = .next { s with run := .halted .stackOverflow })

/-- 2nnn followed by 00EE, whatever the subroutine did to the rest of the state, returns pc to the instruction after the
call and SP to its value before it (R130, R132; D6, D7). -/
def Obligations.ReturnUndoesCall : Prop :=
  ∀ (nnn : BitVec 12) (s : State), s.stack.length = s.cfg.stackSize → s.sp + 1 < s.cfg.stackSize →
    ∃ t, exec (.call nnn) s = .next t ∧
      ∀ u : State, u.stack = t.stack → u.sp = t.sp →
        exec .ret u = .next { u with pc := s.pc, sp := s.sp }

/-- R133, R134: 3xnn skips when Vx = nn, 4xnn when Vx differs from nn; nothing else changes. -/
def Obligations.SkipsOnImmediate : Prop :=
  EncodedBy 0x3000 0xF000 (fun w => .seImm (fieldX w) (fieldNN w)) ∧
  EncodedBy 0x4000 0xF000 (fun w => .sneImm (fieldX w) (fieldNN w)) ∧
  ∀ (x : Reg) (nn : Byte) (s : State),
    (∃ t, exec (.seImm x nn) s = .next t ∧ t.pc = (if s.getV x = nn then s.pc + 2 else s.pc) ∧ OnlyPcChanges s t) ∧
    (∃ t, exec (.sneImm x nn) s = .next t ∧ t.pc = (if s.getV x = nn then s.pc else s.pc + 2) ∧ OnlyPcChanges s t)

/-- 5xy0 skips when Vx = Vy, 9xy0 when they differ; nothing else changes (R135, R136; the spec's own D18 for the
encoding). -/
def Obligations.SkipsOnRegisters : Prop :=
  EncodedBy 0x5000 0xF00F (fun w => .seReg (fieldX w) (fieldY w)) ∧
  EncodedBy 0x9000 0xF00F (fun w => .sneReg (fieldX w) (fieldY w)) ∧
  ∀ (x y : Reg) (s : State),
    (∃ t, exec (.seReg x y) s = .next t ∧ t.pc = (if s.getV x = s.getV y then s.pc + 2 else s.pc) ∧
      OnlyPcChanges s t) ∧
    (∃ t, exec (.sneReg x y) s = .next t ∧ t.pc = (if s.getV x = s.getV y then s.pc else s.pc + 2) ∧
      OnlyPcChanges s t)

/-- R138: Bnnn sets pc to nnn + V0, unmasked, and changes nothing else. -/
def Obligations.JumpWithOffsetAddsV0 : Prop :=
  EncodedBy 0xB000 0xF000 (fun w => .jpV0 (fieldNNN w)) ∧
  ∀ (nnn : BitVec 12) (s : State),
    ∃ t, exec (.jpV0 nnn) s = .next t ∧ t.pc.toNat = nnn.toNat + (s.getV 0).toNat ∧ OnlyPcChanges s t

/-- Ex9E skips when the key numbered Vx is down, ExA1 when it is up; a number above 15 is never down under `NotDown` and
is taken by its low nibble under `LowNibble`; nothing else changes (R220, R221; the spec's own D17, D26). -/
def Obligations.SkipsOnKeyState : Prop :=
  EncodedBy 0xE09E 0xF0FF (fun w => .skp (fieldX w)) ∧ EncodedBy 0xE0A1 0xF0FF (fun w => .sknp (fieldX w)) ∧
  ∀ (x : Reg) (s : State) (down : Bool),
    ((s.getV x).toNat ≤ 15 → down = s.input.keys.getLsbD (s.getV x).toNat) →
    (15 < (s.getV x).toNat → s.cfg.keyRangePolicy = .notDown → down = false) →
    (15 < (s.getV x).toNat → s.cfg.keyRangePolicy = .lowNibble →
      down = s.input.keys.getLsbD ((s.getV x).toNat % 16)) →
    (∃ t, exec (.skp x) s = .next t ∧ t.pc = (if down then s.pc + 2 else s.pc) ∧ OnlyPcChanges s t) ∧
    (∃ t, exec (.sknp x) s = .next t ∧ t.pc = (if down then s.pc else s.pc + 2) ∧ OnlyPcChanges s t)

/-! ## Registers, arithmetic and logic -/

/-- R151, R152: 6xnn loads nn; 7xnn adds nn modulo 256 and sets no flag: VF changes only where it is Vx. -/
def Obligations.ImmediateLoadAndAdd : Prop :=
  EncodedBy 0x6000 0xF000 (fun w => .ldImm (fieldX w) (fieldNN w)) ∧
  EncodedBy 0x7000 0xF000 (fun w => .addImm (fieldX w) (fieldNN w)) ∧
  ∀ (x : Reg) (nn : Byte) (s : State),
    (∃ t, exec (.ldImm x nn) s = .next t ∧ t.getV x = nn ∧ OnlyRegsChange [x] s t) ∧
    (∃ t, exec (.addImm x nn) s = .next t ∧ (t.getV x).toNat = ((s.getV x).toNat + nn.toNat) % 256 ∧
      OnlyRegsChange [x] s t)

/-- R153 to R156: 8xy0 copies, 8xy1 ORs, 8xy2 ANDs and 8xy3 XORs Vy into Vx; VF is not reset. -/
def Obligations.CopyAndLogic : Prop :=
  EncodedBy 0x8000 0xF00F (fun w => .ldReg (fieldX w) (fieldY w)) ∧
  EncodedBy 0x8001 0xF00F (fun w => .orReg (fieldX w) (fieldY w)) ∧
  EncodedBy 0x8002 0xF00F (fun w => .andReg (fieldX w) (fieldY w)) ∧
  EncodedBy 0x8003 0xF00F (fun w => .xorReg (fieldX w) (fieldY w)) ∧
  ∀ (x y : Reg) (s : State),
    (∃ t, exec (.ldReg x y) s = .next t ∧ t.getV x = s.getV y ∧ OnlyRegsChange [x] s t) ∧
    (∃ t, exec (.orReg x y) s = .next t ∧ OnlyRegsChange [x] s t ∧
      ∀ b, (t.getV x).getLsbD b = ((s.getV x).getLsbD b || (s.getV y).getLsbD b)) ∧
    (∃ t, exec (.andReg x y) s = .next t ∧ OnlyRegsChange [x] s t ∧
      ∀ b, (t.getV x).getLsbD b = ((s.getV x).getLsbD b && (s.getV y).getLsbD b)) ∧
    (∃ t, exec (.xorReg x y) s = .next t ∧ OnlyRegsChange [x] s t ∧
      ∀ b, (t.getV x).getLsbD b = ((s.getV x).getLsbD b ^^ (s.getV y).getLsbD b))

/-- R157, for x other than F (AddSubtractShiftIntoVF has x = F): Vx is the sum modulo 256 and VF the carry. -/
def Obligations.AddSetsCarry : Prop :=
  EncodedBy 0x8004 0xF00F (fun w => .addReg (fieldX w) (fieldY w)) ∧
  ∀ (x y : Reg) (s : State), x ≠ vf →
    ∃ t, exec (.addReg x y) s = .next t ∧
      (t.getV x).toNat = ((s.getV x).toNat + (s.getV y).toNat) % 256 ∧
      t.getV vf = (if 255 < (s.getV x).toNat + (s.getV y).toNat then 1 else 0) ∧ OnlyRegsChange [x, vf] s t

/-- R158, R160, for x other than F (AddSubtractShiftIntoVF has x = F): the difference modulo 256, and VF = 1 exactly
when the minuend is strictly greater. -/
def Obligations.SubtractionsSetStrictGreaterFlag : Prop :=
  EncodedBy 0x8005 0xF00F (fun w => .sub (fieldX w) (fieldY w)) ∧
  EncodedBy 0x8007 0xF00F (fun w => .subn (fieldX w) (fieldY w)) ∧
  ∀ (x y : Reg) (s : State), x ≠ vf →
    (∃ t, exec (.sub x y) s = .next t ∧
      ((t.getV x).toNat : Int) = (((s.getV x).toNat : Int) - (s.getV y).toNat) % 256 ∧
      t.getV vf = (if (s.getV y).toNat < (s.getV x).toNat then 1 else 0) ∧ OnlyRegsChange [x, vf] s t) ∧
    (∃ t, exec (.subn x y) s = .next t ∧
      ((t.getV x).toNat : Int) = (((s.getV y).toNat : Int) - (s.getV x).toNat) % 256 ∧
      t.getV vf = (if (s.getV x).toNat < (s.getV y).toNat then 1 else 0) ∧ OnlyRegsChange [x, vf] s t)

/-- R159, R161, for x other than F (AddSubtractShiftIntoVF has x = F): Vx is halved, or doubled modulo 256, and VF is the
bit shifted out; y plays no part. -/
def Obligations.ShiftsSetTheBitShiftedOut : Prop :=
  EncodedBy 0x8006 0xF00F (fun w => .shr (fieldX w) (fieldY w)) ∧
  EncodedBy 0x800E 0xF00F (fun w => .shl (fieldX w) (fieldY w)) ∧
  ∀ (x y : Reg) (s : State), x ≠ vf →
    (∃ t, exec (.shr x y) s = .next t ∧ (t.getV x).toNat = (s.getV x).toNat / 2 ∧
      (t.getV vf).toNat = (s.getV x).toNat % 2 ∧ OnlyRegsChange [x, vf] s t) ∧
    (∃ t, exec (.shl x y) s = .next t ∧ (t.getV x).toNat = (s.getV x).toNat * 2 % 256 ∧
      (t.getV vf).toNat = (s.getV x).toNat / 128 ∧ OnlyRegsChange [x, vf] s t)

/-- 8xy4 to 8xyE with x = F: VF ends holding the result under `ResultWins` and the flag under `FlagWins`, both computed
from the values before the instruction (R150; the spec's own D14, D15). -/
def Obligations.AddSubtractShiftIntoVF : Prop :=
  ∀ (y : Reg) (s : State) (a b : Nat), a = (s.getV vf).toNat → b = (s.getV y).toNat →
    ∀ (i : Instr) (result flag : Nat),
      (i, result, flag) ∈ [(Instr.addReg vf y, (a + b) % 256, if 255 < a + b then 1 else 0),
        (.sub vf y, (256 + a - b) % 256, if b < a then 1 else 0), (.shr vf y, a / 2, a % 2),
        (.subn vf y, (256 + b - a) % 256, if a < b then 1 else 0), (.shl vf y, a * 2 % 256, a / 128)] →
      ∃ t, exec i s = .next t ∧ OnlyRegsChange [vf] s t ∧
        (s.cfg.vfDestOrder = .resultWins → (t.getV vf).toNat = result) ∧
        (s.cfg.vfDestOrder = .flagWins → (t.getV vf).toNat = flag)

/-- Cxnn: Vx is nn AND the step's random byte, a free input (R162; the spec's own D27). -/
def Obligations.RandomByteIsMasked : Prop :=
  EncodedBy 0xC000 0xF000 (fun w => .rnd (fieldX w) (fieldNN w)) ∧
  ∀ (x : Reg) (nn : Byte) (s : State),
    ∃ t, exec (.rnd x nn) s = .next t ∧ OnlyRegsChange [x] s t ∧
      ∀ b, (t.getV x).getLsbD b = (nn.getLsbD b && s.input.rnd.getLsbD b)

/-! ## Index register and memory transfer -/

/-- R180 to R182: Annn loads I, Fx1E adds Vx modulo 65536, Fx29 sets I to five times Vx, unmasked; no flag, nothing else
changes. -/
def Obligations.IndexIsSetAddedAndPointedAtGlyphs : Prop :=
  EncodedBy 0xA000 0xF000 (fun w => .ldI (fieldNNN w)) ∧ EncodedBy 0xF01E 0xF0FF (fun w => .addI (fieldX w)) ∧
  EncodedBy 0xF029 0xF0FF (fun w => .ldF (fieldX w)) ∧
  (∀ (nnn : BitVec 12) (s : State),
    ∃ t, exec (.ldI nnn) s = .next t ∧ t.i.toNat = nnn.toNat ∧ OnlyIndexChanges s t) ∧
  ∀ (x : Reg) (s : State),
    (∃ t, exec (.addI x) s = .next t ∧ t.i.toNat = (s.i.toNat + (s.getV x).toNat) % 65536 ∧ OnlyIndexChanges s t) ∧
    (∃ t, exec (.ldF x) s = .next t ∧ t.i.toNat = (s.getV x).toNat * 5 ∧ OnlyIndexChanges s t)

/-- R184, inside memory (WrapPolicyReachesModulo4096 and OutOfRangeAccessHalts have the rest): Fx33 stores the three
decimal digits at I, I+1, I+2, which rebuild Vx; every other byte reads as before. -/
def Obligations.BcdDigitsAreStored : Prop :=
  EncodedBy 0xF033 0xF0FF (fun w => .ldB (fieldX w)) ∧
  ∀ (x : Reg) (s : State), s.mem.wf s.cfg.font → s.i.toNat + 2 < 4096 →
    ∃ t, exec (.ldB x) s = .next t ∧
      (t.readByte s.i.toNat).toNat = (s.getV x).toNat / 100 ∧
      (t.readByte (s.i.toNat + 1)).toNat = (s.getV x).toNat / 10 % 10 ∧
      (t.readByte (s.i.toNat + 2)).toNat = (s.getV x).toNat % 10 ∧
      (s.getV x).toNat = 100 * (t.readByte s.i.toNat).toNat + 10 * (t.readByte (s.i.toNat + 1)).toNat +
        (t.readByte (s.i.toNat + 2)).toNat ∧
      OnlyBytesChange (fun a => s.i.toNat ≤ a ∧ a ≤ s.i.toNat + 2) s t

/-- R185, inside memory (WrapPolicyReachesModulo4096 and OutOfRangeAccessHalts have the rest): Fx55 stores V0 to Vx at I
onward; I and every other byte are as before. -/
def Obligations.RegistersAreStored : Prop :=
  EncodedBy 0xF055 0xF0FF (fun w => .storeRegs (fieldX w)) ∧
  ∀ (x : Reg) (s : State), s.mem.wf s.cfg.font → s.i.toNat + x.val < 4096 →
    ∃ t, exec (.storeRegs x) s = .next t ∧ (∀ k : Reg, k ≤ x → t.readByte (s.i.toNat + k.val) = s.getV k) ∧
      OnlyBytesChange (fun a => s.i.toNat ≤ a ∧ a ≤ s.i.toNat + x.val) s t

/-- R186, inside memory (WrapPolicyReachesModulo4096 and OutOfRangeAccessHalts have the rest): Fx65 loads V0 to Vx from I
onward; I, memory and every other register are as before. -/
def Obligations.RegistersAreLoaded : Prop :=
  EncodedBy 0xF065 0xF0FF (fun w => .loadRegs (fieldX w)) ∧
  ∀ (x : Reg) (s : State), s.i.toNat + x.val < 4096 →
    ∃ t, exec (.loadRegs x) s = .next t ∧ (∀ k : Reg, k ≤ x → t.getV k = s.readByte (s.i.toNat + k.val)) ∧
      (∀ k : Reg, x < k → t.getV k = s.getV k) ∧ t = { s with v := t.v } ∧ MemoryKept s t

/-- Under `MEM_OOB_POLICY = Wrap`, Fx33, Fx55 and Fx65 run at every I, each byte at its address modulo 4096 (R56, R183;
the spec's own D12). -/
def Obligations.WrapPolicyReachesModulo4096 : Prop :=
  ∀ (x : Reg) (s : State), s.mem.wf s.cfg.font → s.cfg.memOobPolicy = .wrap →
    (∃ t, exec (.ldB x) s = .next t ∧
      (t.readByte (s.i.toNat % 4096)).toNat = (s.getV x).toNat / 100 ∧
      (t.readByte ((s.i.toNat + 1) % 4096)).toNat = (s.getV x).toNat / 10 % 10 ∧
      (t.readByte ((s.i.toNat + 2) % 4096)).toNat = (s.getV x).toNat % 10 ∧
      OnlyBytesChange (fun a => ∃ k, k ≤ 2 ∧ a = (s.i.toNat + k) % 4096) s t) ∧
    (∃ t, exec (.storeRegs x) s = .next t ∧
      (∀ k : Reg, k ≤ x → t.readByte ((s.i.toNat + k.val) % 4096) = s.getV k) ∧
      OnlyBytesChange (fun a => ∃ k, k ≤ x.val ∧ a = (s.i.toNat + k) % 4096) s t) ∧
    (∃ t, exec (.loadRegs x) s = .next t ∧
      (∀ k : Reg, k ≤ x → t.getV k = s.readByte ((s.i.toNat + k.val) % 4096)) ∧
      (∀ k : Reg, x < k → t.getV k = s.getV k) ∧ t = { s with v := t.v } ∧ MemoryKept s t)

/-- Under `MEM_OOB_POLICY = Fatal`, an access whose highest address is at or above 4096 ends the run with
`MemoryOutOfBounds` and writes nothing, for Fx33, Fx55, Fx65 and the rows of Dxyn that fall on the screen (R183, R201,
R246; the spec's own D12, D13, D16). -/
def Obligations.OutOfRangeAccessHalts : Prop :=
  ∀ (s : State) (x y : Reg) (n : BitVec 4), s.cfg.memOobPolicy = .fatal →
    (4096 ≤ s.i.toNat + 2 → exec (.ldB x) s = .next { s with run := .halted .memoryOutOfBounds }) ∧
    (4096 ≤ s.i.toNat + x.val →
      exec (.storeRegs x) s = .next { s with run := .halted .memoryOutOfBounds } ∧
      exec (.loadRegs x) s = .next { s with run := .halted .memoryOutOfBounds }) ∧
    (∀ r, r < n.toNat → (s.getV y).toNat % s.cfg.fbH + r < s.cfg.fbH → 4096 ≤ s.i.toNat + r →
      exec (.drw x y n) s = .next { s with run := .halted .memoryOutOfBounds })

/-- Registers that Fx55 stored come back with Fx65, whatever happened to the registers in between, as long as I and the
memory are as they were (R185, R186; D12 where I + x passes the end of memory). -/
def Obligations.LoadAfterStoreRestoresRegisters : Prop :=
  ∀ (x : Reg) (s : State), s.mem.wf s.cfg.font → (s.i.toNat + x.val < 4096 ∨ s.cfg.memOobPolicy = .wrap) →
    ∃ t, exec (.storeRegs x) s = .next t ∧
      ∀ u : State, u.mem = t.mem → u.i = t.i → u.cfg = t.cfg →
        ∃ r, exec (.loadRegs x) u = .next r ∧ (∀ k : Reg, k ≤ x → r.getV k = s.getV k) ∧
          (∀ k : Reg, x < k → r.getV k = u.getV k)

/-- Self-modified code: a word that Fx55 stored is what the next fetch of its address runs (R64; the spec's own D29). -/
def Obligations.StoredCodeRunsAtTheNextFetch : Prop :=
  ∀ (x k j : Reg) (s t u : State) (input : StepInput) (rest : List HostCall), s.mem.wf s.cfg.font →
    s.i.toNat + x.val < 4096 → j.val = k.val + 1 → j ≤ x → exec (.storeRegs x) s = .next t →
    u.mem = t.mem → u.cfg = t.cfg → u.pc.toNat = s.i.toNat + k.val → u.run = .running →
    u.pending = .step input :: rest → u.cfg.ticksPerSecond < (input.now - u.tInstr) * u.cfg.ips →
    step u = exec (decode (s.getV k ++ s.getV j))
      { timerPhase input { u with pending := rest } with tInstr := input.now, pc := u.pc + 2 }

/-! ## Display -/

/-- R200: 00E0 leaves every cell unlit and sets CLEAR_REQ; nothing else changes. -/
def Obligations.ClearScreenUnlightsEveryCell : Prop :=
  EncodedBy 0x00E0 0xFFFF (fun _ => .cls) ∧
  ∀ s : State, ∃ t, exec .cls s = .next t ∧ (∀ col row, t.cellLit col row = false) ∧ t.clearReq = true ∧
    t = { s with fb := t.fb, clearReq := true } ∧ (∀ r, t.getV r = s.getV r) ∧ MemoryKept s t

/-- Dxyn cell by cell: every cell of the screen is toggled exactly when the sprite has a set bit there, VF is 1 exactly
when one of those cells was lit, REDRAW_REQ is set, and nothing else changes, for every screen size and whether or not x or
y is F (R201 to R205; the spec's own D12, D14, D16). -/
def Obligations.DrawTogglesExactlyTheSpriteBits : Prop :=
  EncodedBy 0xD000 0xF000 (fun w => .drw (fieldX w) (fieldY w) (fieldN w)) ∧
  ∀ (x y : Reg) (n : BitVec 4) (s : State), 0 < s.cfg.fbW → 0 < s.cfg.fbH →
    Framebuffer.wf (s.cfg.fbW * s.cfg.fbH) s.fb → spriteReadable s y n →
    ∃ t, exec (.drw x y n) s = .next t ∧
      (∀ col row, col < s.cfg.fbW → row < s.cfg.fbH →
        t.cellLit col row = (s.cellLit col row ^^ spriteBit s x y n col row)) ∧
      (t.getV vf = 1 ∨ t.getV vf = 0) ∧
      (t.getV vf = 1 ↔ ∃ col row, col < s.cfg.fbW ∧ row < s.cfg.fbH ∧ spriteBit s x y n col row = true ∧
        s.cellLit col row = true) ∧
      t.redrawReq = true ∧ t = { s with v := t.v, fb := t.fb, redrawReq := true } ∧
      (∀ r, r ≠ vf → t.getV r = s.getV r) ∧ MemoryKept s t

/-- R204: VF is reset before the draw and is 1 after it exactly when the draw turned a lit cell unlit. -/
def Obligations.CollisionFlagMeansALitCellWentOut : Prop :=
  ∀ (x y : Reg) (n : BitVec 4) (s t : State), 0 < s.cfg.fbW → 0 < s.cfg.fbH →
    Framebuffer.wf (s.cfg.fbW * s.cfg.fbH) s.fb → spriteReadable s y n → exec (.drw x y n) s = .next t →
    (t.getV vf = 1 ↔ ∃ col row, col < s.cfg.fbW ∧ row < s.cfg.fbH ∧ s.cellLit col row = true ∧
      t.cellLit col row = false) ∧
    (t.getV vf = 1 ∨ t.getV vf = 0)

/-- Drawing the same sprite twice at the same origin gives the first framebuffer back, and the second draw reports a
collision exactly when the first lit a cell (R206's first sentence; log 11 on its second). The same origin: neither x nor
y is F, or VF still gives it. -/
def Obligations.DrawingTwiceRestoresTheFrame : Prop :=
  ∀ (x y : Reg) (n : BitVec 4) (s : State), 0 < s.cfg.fbW → 0 < s.cfg.fbH →
    Framebuffer.wf (s.cfg.fbW * s.cfg.fbH) s.fb → spriteReadable s y n →
    ∃ t, exec (.drw x y n) s = .next t ∧
      (t.getV x = s.getV x → t.getV y = s.getV y →
        ∃ u, exec (.drw x y n) t = .next u ∧ u.fb = s.fb ∧
          (u.getV vf = 1 ↔ ∃ col row, col < s.cfg.fbW ∧ row < s.cfg.fbH ∧ s.cellLit col row = false ∧
            t.cellLit col row = true))

/-! ## Timer registers -/

/-- R222: Fx07 loads Vx from DT; no flag, nothing else changes. -/
def Obligations.DelayTimerIsRead : Prop :=
  EncodedBy 0xF007 0xF0FF (fun w => .ldVxDt (fieldX w)) ∧
  ∀ (x : Reg) (s : State), ∃ t, exec (.ldVxDt x) s = .next t ∧ t.getV x = s.dt ∧ OnlyRegsChange [x] s t

/-- Fx15 sets DT and Fx18 sets ST from Vx; TONE, VF and everything else stay (R224, R225; D20 for TONE). -/
def Obligations.TimersAreSet : Prop :=
  EncodedBy 0xF015 0xF0FF (fun w => .ldDtVx (fieldX w)) ∧ EncodedBy 0xF018 0xF0FF (fun w => .ldStVx (fieldX w)) ∧
  ∀ (x : Reg) (s : State),
    (∃ t, exec (.ldDtVx x) s = .next t ∧ t = { s with dt := s.getV x } ∧ MemoryKept s t) ∧
    (∃ t, exec (.ldStVx x) s = .next t ∧ t = { s with st := s.getV x } ∧ MemoryKept s t)

/-! ## Unmapped words -/

/-- A word that matches no row of the table executes as a no-op: the instruction changes nothing, and a step that fetches
such a word is its timer phase, `T_INSTR` at `now` and the fetch's advance of pc (R75, R76, R101, R105; the spec's own D3,
and D18 on which words are unmapped). -/
def Obligations.UnmappedWordsAreNoOps : Prop :=
  (∀ (w : Word) (s : State), exec (.unmapped w) s = .next s) ∧
  ∀ (s : State) (input : StepInput) (rest : List HostCall),
    (∀ r ∈ opcodeTable, ¬ r.Matches (s.readByte s.pc.toNat ++ s.readByte (s.pc.toNat + 1))) →
    s.run = .running → s.pending = .step input :: rest → s.pc.toNat + 1 < 4096 →
    s.cfg.ticksPerSecond < (input.now - s.tInstr) * s.cfg.ips →
    step s = .next { timerPhase input { s with pending := rest } with tInstr := input.now, pc := s.pc + 2 }

/-! ## Whole-machine rules -/

/-- Every instruction completes in every state, and the only instructions that can end the run are 00EE, 2nnn, Dxyn, Fx33,
Fx55 and Fx65, each with its one cause (R242, R244). -/
def Obligations.EveryInstructionCompletesWithItsOneCause : Prop :=
  ∀ (i : Instr) (s : State), ∃ t, exec i s = .next t ∧
    ∀ c, s.run = .running → t.run = .halted c →
      (i = .ret ∧ c = .stackUnderflow) ∨ (∃ nnn, i = .call nnn ∧ c = .stackOverflow) ∨
      (((∃ x y n, i = .drw x y n) ∨ (∃ x, i = .ldB x) ∨ (∃ x, i = .storeRegs x) ∨ (∃ x, i = .loadRegs x)) ∧
        c = .memoryOutOfBounds)

/-- An instruction that ends the run has written nothing but RUN (R246; the spec's own D13). -/
def Obligations.FatalConditionsArePrecise : Prop :=
  ∀ (i : Instr) (s t : State) (c : Cause), s.run = .running → exec i s = .next t → t.run = .halted c →
    t = { s with run := .halted c }

/-- What each part of the state is written by: FB by 00E0 and Dxyn (R37), STACK and SP by 2nnn and 00EE (R31), I by Annn,
Fx1E and Fx29 (R26), DT by Fx15 and ST by Fx18 (R35), memory by Fx33 and Fx55 (R50), CLEAR_REQ by 00E0 and REDRAW_REQ by
Dxyn (R39), pc by the jumps, the call, the return and the skips (R28), the V registers by the instructions of R24's table
(RegistersAreWrittenOnlyAsTheTableSays says which register); RUN becomes AwaitKey(x) by Fx0A with that x alone and Halted
by 00EE, 2nnn, Dxyn, Fx33, Fx55 and Fx65 alone, and no instruction makes it Running (R41, R109, R244, R259); `T_TIMER`,
`T_INSTR`, TONE (R39, R109), the configuration and the host's inputs by none. -/
def Obligations.StateIsWrittenOnlyByItsInstructions : Prop :=
  ∀ (i : Instr) (s t : State), exec i s = .next t →
    (t.fb ≠ s.fb → i = .cls ∨ ∃ x y n, i = .drw x y n) ∧
    (t.stack ≠ s.stack → ∃ nnn, i = .call nnn) ∧ (t.sp ≠ s.sp → i = .ret ∨ ∃ nnn, i = .call nnn) ∧
    (t.i ≠ s.i → (∃ nnn, i = .ldI nnn) ∨ (∃ x, i = .addI x) ∨ ∃ x, i = .ldF x) ∧
    (t.dt ≠ s.dt → ∃ x, i = .ldDtVx x) ∧ (t.st ≠ s.st → ∃ x, i = .ldStVx x) ∧
    (t.mem ≠ s.mem → (∃ x, i = .ldB x) ∨ ∃ x, i = .storeRegs x) ∧
    (t.clearReq ≠ s.clearReq → i = .cls) ∧ (t.redrawReq ≠ s.redrawReq → ∃ x y n, i = .drw x y n) ∧
    (t.pc ≠ s.pc → i = .ret ∨ (∃ a, i = .jp a ∨ i = .call a ∨ i = .jpV0 a) ∨
      (∃ x nn, i = .seImm x nn ∨ i = .sneImm x nn) ∨ (∃ x y, i = .seReg x y ∨ i = .sneReg x y) ∨
      ∃ x, i = .skp x ∨ i = .sknp x) ∧
    (t.v ≠ s.v → writtenRegs i ≠ []) ∧
    (t.run ≠ s.run →
      (∃ x, t.run = .awaitKey x ∧ i = .ldVxK x) ∨
      ∃ c, t.run = .halted c ∧ (i = .ret ∨ (∃ nnn, i = .call nnn) ∨ (∃ x y n, i = .drw x y n) ∨ (∃ x, i = .ldB x) ∨
        (∃ x, i = .storeRegs x) ∨ ∃ x, i = .loadRegs x)) ∧
    t.tTimer = s.tTimer ∧ t.tInstr = s.tInstr ∧ t.tone = s.tone ∧ t.cfg = s.cfg ∧ t.input = s.input ∧
    t.pending = s.pending ∧ t.draws = s.draws

/-- A general register changes only when the table of R24 says the instruction writes it. -/
def Obligations.RegistersAreWrittenOnlyAsTheTableSays : Prop :=
  ∀ (i : Instr) (s t : State) (r : Reg), exec i s = .next t → r ∉ writtenRegs i → t.getV r = s.getV r

/-- The random byte is read by Cxnn alone, and the key snapshot by Ex9E and ExA1 alone: changing them changes no other
instruction's effect (R250, R252, R254). -/
def Obligations.HostInputsReachOnlyTheirInstructions : Prop :=
  ∀ (i : Instr) (s t : State), exec i s = .next t →
    (∀ b : Byte, (∀ x nn, i ≠ .rnd x nn) →
      exec i { s with input := { s.input with rnd := b } } = .next { t with input := { t.input with rnd := b } }) ∧
    (∀ k : BitVec 16, (∀ x, i ≠ .skp x ∧ i ≠ .sknp x) →
      exec i { s with input := { s.input with keys := k } } = .next { t with input := { t.input with keys := k } })

/-- The invariant holds at reset. -/
def Obligations.ResetMeetsInvariant : Prop := State.reset.Inv

/-- Every step keeps the invariant: memory and the framebuffer stay canonical, the stack keeps its size, SP stays in 0 to
STACK_SIZE - 1, return addresses stay at most 0x1000 and pc at most 0x10FE (R29, R32, R37; D6, D7, D9). -/
def Obligations.StepKeepsInvariant : Prop := ∀ s t : State, s.Inv → step s = .next t → t.Inv

/-- No step changes the configuration (R20; log 2). -/
def Obligations.ConfigurationIsFixedForARun : Prop := ∀ s t : State, step s = .next t → t.cfg = s.cfg

/-! ## Construction -/

/-- R25, R30, R38, R54, for every configuration, start time and ROM that fits: after construction every V register is 0,
pc is 0x200, every cell is unlit, and the bytes of 0x050 to 0x1FF and past the ROM read 0. -/
def Obligations.ConstructionZeroesRegistersFrameAndMemory : Prop :=
  ∀ (cfg : Config) (rom : List Byte) (start : Nat), 0x200 + rom.length ≤ 4096 →
    ∃ s, construct cfg rom start = .next s ∧ (∀ r, s.getV r = 0) ∧ s.pc = 0x200 ∧
      (∀ col row, s.cellLit col row = false) ∧
      (∀ a, 0x50 ≤ a → a < 0x200 → s.readByte a = 0) ∧
      (∀ a, 0x200 + rom.length ≤ a → a < 4096 → s.readByte a = 0)

/-- R271: a ROM of more than 3584 bytes is `RomTooLarge` and produces no machine; any other ROM, the empty one included,
is accepted. -/
def Obligations.RomSizeIsChecked : Prop :=
  ∀ (cfg : Config) (rom : List Byte) (start : Nat),
    (4096 < 0x200 + rom.length → construct cfg rom start = .fault .romTooLarge) ∧
    (0x200 + rom.length ≤ 4096 → ∃ s, construct cfg rom start = .next s)

/-- Construction loads the ROM from 0x200 and the font from 0, and gives the other registers the values of R43: I, SP, the
stack, DT, ST and the flags 0, both gate timestamps the start time, RUN Running, and the state meets the invariant (R43,
R52, R53, R272; the spec's own D19, D21; log 5 for State.reset). -/
def Obligations.ConstructionLoadsRomAndFont : Prop :=
  (∀ (cfg : Config) (rom : List Byte) (start : Nat), 0x200 + rom.length ≤ 4096 →
    ∃ s, construct cfg rom start = .next s ∧
      (∀ k, (h : k < rom.length) → s.readByte (0x200 + k) = rom[k]) ∧
      (∀ a, (h : a < 80) → s.readByte a = cfg.font[a]) ∧
      s.i = 0 ∧ s.sp = 0 ∧ s.stack = List.replicate cfg.stackSize 0 ∧ s.dt = 0 ∧ s.st = 0 ∧
      s.tTimer = start ∧ s.tInstr = start ∧ s.clearReq = false ∧ s.redrawReq = false ∧ s.tone = false ∧
      s.run = .running ∧ s.cfg = cfg ∧ (cfg.WF → s.Inv)) ∧
  construct Config.standard [] 0 = .next State.reset
end

