-- ==== Sys2Proof/Laws/Decode.lean ====
section
/-! SUPPORT. The fields of a word in each format, a word from its fields, the masks of the opcode table as fields, and
the word of each format decoded. -/

namespace Sys2Proof

/-! ### Words as numbers -/

theorem toNat_append_add {m n : Nat} (x : BitVec m) (y : BitVec n) :
    (x ++ y).toNat = x.toNat * 2 ^ n + y.toNat := by
  rw [BitVec.toNat_append, Nat.shiftLeft_eq, Nat.mul_comm, Nat.two_pow_add_eq_or_of_lt y.isLt]

theorem toNat_ofDigits (a d : BitVec 4) (b c : Reg) :
    (ofDigits a b c d).toNat = a.toNat * 4096 + b.val * 256 + c.val * 16 + d.toNat := by
  unfold ofDigits
  rw [toNat_append_add, toNat_append_add, toNat_append_add]
  simp only [BitVec.toNat_ofFin]
  omega

theorem toNat_ofNNN (f : BitVec 4) (nnn : BitVec 12) :
    (ofNNN f nnn).toNat = f.toNat * 4096 + nnn.toNat :=
  toNat_append_add f nnn

theorem toNat_ofXNN (f : BitVec 4) (x : Reg) (nn : Byte) :
    (ofXNN f x nn).toNat = f.toNat * 4096 + x.val * 256 + nn.toNat := by
  unfold ofXNN
  rw [toNat_append_add, toNat_append_add]
  simp only [BitVec.toNat_ofFin]
  omega

theorem toNat_extract (w : Word) (start len : Nat) :
    (w.extractLsb' start len).toNat = w.toNat / 2 ^ start % 2 ^ len := by
  rw [BitVec.extractLsb'_toNat, Nat.shiftRight_eq_div_pow]

theorem toNat_family (w : Word) : (family w).toNat = w.toNat / 4096 := by
  have := toNat_extract w 12 4
  unfold family
  omega

theorem val_fieldX (w : Word) : (fieldX w).val = w.toNat / 256 % 16 := toNat_extract w 8 4
theorem val_fieldY (w : Word) : (fieldY w).val = w.toNat / 16 % 16 := toNat_extract w 4 4

theorem toNat_fieldN (w : Word) : (fieldN w).toNat = w.toNat % 16 := by
  have := toNat_extract w 0 4
  unfold fieldN
  omega

theorem toNat_fieldNN (w : Word) : (fieldNN w).toNat = w.toNat % 256 := by
  have := toNat_extract w 0 8
  unfold fieldNN
  omega

theorem toNat_fieldNNN (w : Word) : (fieldNNN w).toNat = w.toNat % 4096 := by
  have := toNat_extract w 0 12
  unfold fieldNNN
  omega

/-! ### The fields of a word in each format -/

section Formats
variable (f d : BitVec 4) (x y : Reg) (nn : Byte) (nnn : BitVec 12)

@[simp] theorem family_ofDigits : family (ofDigits f x y d) = f := by
  apply BitVec.eq_of_toNat_eq
  rw [toNat_family, toNat_ofDigits]
  omega

@[simp] theorem fieldX_ofDigits : fieldX (ofDigits f x y d) = x := by
  apply Fin.ext
  rw [val_fieldX, toNat_ofDigits]
  omega

@[simp] theorem fieldY_ofDigits : fieldY (ofDigits f x y d) = y := by
  apply Fin.ext
  rw [val_fieldY, toNat_ofDigits]
  omega

@[simp] theorem fieldN_ofDigits : fieldN (ofDigits f x y d) = d := by
  apply BitVec.eq_of_toNat_eq
  rw [toNat_fieldN, toNat_ofDigits]
  omega

@[simp] theorem family_ofNNN : family (ofNNN f nnn) = f := by
  apply BitVec.eq_of_toNat_eq
  rw [toNat_family, toNat_ofNNN]
  omega

@[simp] theorem fieldNNN_ofNNN : fieldNNN (ofNNN f nnn) = nnn := by
  apply BitVec.eq_of_toNat_eq
  rw [toNat_fieldNNN, toNat_ofNNN]
  omega

@[simp] theorem family_ofXNN : family (ofXNN f x nn) = f := by
  apply BitVec.eq_of_toNat_eq
  rw [toNat_family, toNat_ofXNN]
  omega

@[simp] theorem fieldX_ofXNN : fieldX (ofXNN f x nn) = x := by
  apply Fin.ext
  rw [val_fieldX, toNat_ofXNN]
  omega

@[simp] theorem fieldNN_ofXNN : fieldNN (ofXNN f x nn) = nn := by
  apply BitVec.eq_of_toNat_eq
  rw [toNat_fieldNN, toNat_ofXNN]
  omega

end Formats

/-! ### A word from its fields -/

theorem ofDigits_fields (w : Word) : ofDigits (family w) (fieldX w) (fieldY w) (fieldN w) = w := by
  apply BitVec.eq_of_toNat_eq
  rw [toNat_ofDigits, toNat_family, val_fieldX, val_fieldY, toNat_fieldN]
  omega

theorem ofNNN_fields (w : Word) : ofNNN (family w) (fieldNNN w) = w := by
  apply BitVec.eq_of_toNat_eq
  rw [toNat_ofNNN, toNat_family, toNat_fieldNNN]
  omega

theorem ofXNN_fields (w : Word) : ofXNN (family w) (fieldX w) (fieldNN w) = w := by
  apply BitVec.eq_of_toNat_eq
  rw [toNat_ofXNN, toNat_family, val_fieldX, toNat_fieldNN]
  omega

/-- A word of a format is known by its family and its other fields. -/
theorem eq_ofNNN {w : Word} {f : BitVec 4} (h : family w = f) : ofNNN f (fieldNNN w) = w := h ▸ ofNNN_fields w

theorem eq_ofXNN {w : Word} {f : BitVec 4} (h : family w = f) : ofXNN f (fieldX w) (fieldNN w) = w :=
  h ▸ ofXNN_fields w

theorem eq_ofDigits {w : Word} {f : BitVec 4} (h : family w = f) :
    ofDigits f (fieldX w) (fieldY w) (fieldN w) = w := h ▸ ofDigits_fields w

/-! ### The masks of the opcode table -/

theorem and_mask_F000 (w : Word) : w &&& 0xF000 = ofDigits (family w) 0 0 0 := by
  conv_lhs => rw [← ofDigits_fields w]
  rw [show (0xF000 : Word) = ofDigits 15 0 0 0 from rfl]
  unfold ofDigits
  rw [BitVec.and_append, BitVec.and_append, BitVec.and_append]
  congr 1
  · congr 1
    · congr 1
      · exact BitVec.and_allOnes
      · exact BitVec.and_zero
    · exact BitVec.and_zero
  · exact BitVec.and_zero

theorem and_mask_F00F (w : Word) : w &&& 0xF00F = ofDigits (family w) 0 0 (fieldN w) := by
  conv_lhs => rw [← ofDigits_fields w]
  rw [show (0xF00F : Word) = ofDigits 15 0 0 15 from rfl]
  unfold ofDigits
  rw [BitVec.and_append, BitVec.and_append, BitVec.and_append]
  congr 1
  · congr 1
    · congr 1
      · exact BitVec.and_allOnes
      · exact BitVec.and_zero
    · exact BitVec.and_zero
  · exact BitVec.and_allOnes

theorem and_mask_F0FF (w : Word) : w &&& 0xF0FF = ofXNN (family w) 0 (fieldNN w) := by
  conv_lhs => rw [← ofXNN_fields w]
  rw [show (0xF0FF : Word) = ofXNN 15 0 255 from rfl]
  unfold ofXNN
  rw [BitVec.and_append, BitVec.and_append]
  congr 1
  · congr 1
    · exact BitVec.and_allOnes
    · exact BitVec.and_zero
  · exact BitVec.and_allOnes

/-- When a word matches a row of mask F000: its family is the row's. -/
theorem matches_F000 (w : Word) (f : BitVec 4) : w &&& 0xF000 = ofDigits f 0 0 0 ↔ family w = f := by
  rw [and_mask_F000]
  exact ⟨fun h => by simpa using congrArg family h, fun h => by rw [h]⟩

/-- When a word matches a row of mask F00F: its family and its n are the row's. -/
theorem matches_F00F (w : Word) (f n : BitVec 4) :
    w &&& 0xF00F = ofDigits f 0 0 n ↔ family w = f ∧ fieldN w = n := by
  rw [and_mask_F00F]
  exact ⟨fun h => ⟨by simpa using congrArg family h, by simpa using congrArg fieldN h⟩, fun h => by rw [h.1, h.2]⟩

/-- When a word matches a row of mask F0FF: its family and its nn are the row's. -/
theorem matches_F0FF (w : Word) (f : BitVec 4) (nn : Byte) :
    w &&& 0xF0FF = ofXNN f 0 nn ↔ family w = f ∧ fieldNN w = nn := by
  rw [and_mask_F0FF]
  exact ⟨fun h => ⟨by simpa using congrArg family h, by simpa using congrArg fieldNN h⟩, fun h => by rw [h.1, h.2]⟩

end Sys2Proof
end

