-- ==== Sys2Proof/Laws/Framebuffer.lean ====
section
/-! SUPPORT. Framebuffer cells: reading after a toggle, the canonical form, and what toggling a list of cells does. -/

namespace Sys2Proof.Machine.Framebuffer

theorem lit_iff (fb : Framebuffer) (c : Nat) : fb.lit c = true ↔ c ∈ fb := by simp [lit]

theorem lit_nil (c : Nat) : lit [] c = false := by simp [lit]

/-- A cell below every lit one is not in the list. -/
theorem notMem_of_lt {fb : Framebuffer} {c : Nat} (h : ∀ d ∈ fb, c < d) : c ∉ fb :=
  fun hc => Nat.lt_irrefl c (h c hc)

theorem mem_toggle {fb : Framebuffer} (hs : fb.Pairwise (· < ·)) (c d : Nat) :
    d ∈ fb.toggle c ↔ (if d = c then d ∉ fb else d ∈ fb) := by
  induction fb with
  | nil => by_cases h : d = c <;> simp [toggle, h]
  | cons e fb ih =>
    have hs' := List.pairwise_cons.1 hs
    simp only [toggle]
    by_cases h1 : c < e
    · rw [if_pos h1]
      by_cases hd : d = c
      · subst hd
        have : d ∉ e :: fb := notMem_of_lt fun x hx => by
          rcases List.mem_cons.1 hx with rfl | hx
          · exact h1
          · exact Nat.lt_trans h1 (hs'.1 x hx)
        simp [this]
      · simp [hd]
    · rw [if_neg h1]
      by_cases h2 : c = e
      · subst h2
        rw [if_pos rfl]
        by_cases hd : d = c
        · subst hd
          simpa using notMem_of_lt hs'.1
        · simp [hd]
      · rw [if_neg h2, List.mem_cons, ih hs'.2]
        by_cases hd : d = c
        · subst hd; simp [h2]
        · simp [hd]

theorem toggle_pairwise {fb : Framebuffer} (hs : fb.Pairwise (· < ·)) (c : Nat) :
    (fb.toggle c).Pairwise (· < ·) := by
  induction fb with
  | nil => simp [toggle]
  | cons e fb ih =>
    have hs' := List.pairwise_cons.1 hs
    simp only [toggle]
    split
    · next h =>
      refine List.pairwise_cons.2 ⟨fun x hx => ?_, hs⟩
      rcases List.mem_cons.1 hx with rfl | hx
      · exact h
      · exact Nat.lt_trans h (hs'.1 x hx)
    · split
      · exact hs'.2
      · next h1 h2 =>
        refine List.pairwise_cons.2 ⟨fun x hx => ?_, ih hs'.2⟩
        rw [mem_toggle hs'.2] at hx
        by_cases hxc : x = c
        · omega
        · rw [if_neg hxc] at hx
          exact hs'.1 x hx

/-- A toggle turns its cell over and leaves every other. -/
theorem lit_toggle {fb : Framebuffer} (hs : fb.Pairwise (· < ·)) (c d : Nat) :
    (fb.toggle c).lit d = if d = c then !fb.lit d else fb.lit d := by
  have := mem_toggle hs c d
  by_cases h : d = c
  · rw [if_pos h] at this ⊢
    simp [lit, this]
  · rw [if_neg h] at this ⊢
    simp [lit, this]

theorem wf_toggle {size : Nat} {fb : Framebuffer} (h : wf size fb) {c : Nat} (hc : c < size) :
    wf size (fb.toggle c) := by
  refine ⟨toggle_pairwise h.1 c, fun d hd => ?_⟩
  rw [mem_toggle h.1] at hd
  by_cases hdc : d = c
  · omega
  · rw [if_neg hdc] at hd
    exact h.2 d hd

theorem wf_nil (size : Nat) : wf size [] := ⟨List.Pairwise.nil, fun _ h => nomatch h⟩

/-- Toggling cells of the framebuffer keeps the canonical form. -/
theorem wf_xorCells {size : Nat} (cs : List Nat) :
    ∀ {fb : Framebuffer}, wf size fb → (∀ c ∈ cs, c < size) → wf size (fb.xorCells cs).1 := by
  induction cs with
  | nil => intro fb h _; exact h
  | cons c cs ih =>
    intro fb h hcs
    exact ih (wf_toggle h (hcs c (by simp))) fun d hd => hcs d (by simp [hd])

theorem xorCells_pairwise (cs : List Nat) :
    ∀ {fb : Framebuffer}, fb.Pairwise (· < ·) → (fb.xorCells cs).1.Pairwise (· < ·) := by
  induction cs with
  | nil => intro fb h; exact h
  | cons c cs ih => intro fb h; exact ih (toggle_pairwise h c)

/-- Toggling distinct cells turns over exactly those cells. -/
theorem lit_xorCells (cs : List Nat) :
    ∀ {fb : Framebuffer}, fb.Pairwise (· < ·) → cs.Nodup → ∀ d,
      (fb.xorCells cs).1.lit d = (fb.lit d ^^ decide (d ∈ cs)) := by
  induction cs with
  | nil => intro fb _ _ d; simp [xorCells]
  | cons c cs ih =>
    intro fb h hn d
    have hn' := List.nodup_cons.1 hn
    rw [xorCells, ih (toggle_pairwise h c) hn'.2 d, lit_toggle h]
    by_cases hd : d = c
    · subst hd; simp [hn'.1]
    · simp [hd]

/-- Toggling distinct cells reports a collision exactly when one of them was lit. -/
theorem xorCells_collision (cs : List Nat) :
    ∀ {fb : Framebuffer}, fb.Pairwise (· < ·) → cs.Nodup →
      ((fb.xorCells cs).2 = true ↔ ∃ c ∈ cs, fb.lit c = true) := by
  induction cs with
  | nil => intro fb _ _; simp [xorCells]
  | cons c cs ih =>
    intro fb h hn
    have hn' := List.nodup_cons.1 hn
    simp only [xorCells, Bool.or_eq_true, ih (toggle_pairwise h c) hn'.2, List.mem_cons, exists_eq_or_imp]
    refine or_congr_right (exists_congr fun d => and_congr_right fun hd => ?_)
    have hdc : d ≠ c := fun e => hn'.1 (e ▸ hd)
    rw [lit_toggle h, if_neg hdc]

/-- Canonical framebuffers with the same lit cells are equal. -/
theorem eq_of_lit_eq {fb gb : Framebuffer} (h1 : fb.Pairwise (· < ·)) (h2 : gb.Pairwise (· < ·))
    (h : ∀ d, fb.lit d = gb.lit d) : fb = gb := by
  have hm : ∀ d, d ∈ fb ↔ d ∈ gb := fun d => by rw [← lit_iff, ← lit_iff, h d]
  have nd : ∀ {l : Framebuffer}, l.Pairwise (· < ·) → l.Nodup := fun hl => hl.imp Nat.ne_of_lt
  exact ((List.perm_ext_iff_of_nodup (nd h1) (nd h2)).2 hm).eq_of_pairwise
    (fun a b _ _ hab hba => absurd hab (Nat.lt_asymm hba)) h1 h2

end Sys2Proof.Machine.Framebuffer
end

