-- ==== Sys2Proof/Laws/State.lean ====
section
/-! SUPPORT. Fields of the state after each basic update, one lemma per field per update, and the read-after-write laws
of the general registers. -/

namespace Sys2Proof.Machine

variable (s : State)

namespace State

/-! ### `setV` -/

@[simp] theorem setV_cfg (x : Reg) (w : Byte) : (s.setV x w).cfg = s.cfg := rfl
@[simp] theorem setV_mem (x : Reg) (w : Byte) : (s.setV x w).mem = s.mem := rfl
@[simp] theorem setV_v (x : Reg) (w : Byte) : (s.setV x w).v = s.v.set x w := rfl
@[simp] theorem setV_i (x : Reg) (w : Byte) : (s.setV x w).i = s.i := rfl
@[simp] theorem setV_pc (x : Reg) (w : Byte) : (s.setV x w).pc = s.pc := rfl
@[simp] theorem setV_stack (x : Reg) (w : Byte) : (s.setV x w).stack = s.stack := rfl
@[simp] theorem setV_sp (x : Reg) (w : Byte) : (s.setV x w).sp = s.sp := rfl
@[simp] theorem setV_dt (x : Reg) (w : Byte) : (s.setV x w).dt = s.dt := rfl
@[simp] theorem setV_st (x : Reg) (w : Byte) : (s.setV x w).st = s.st := rfl
@[simp] theorem setV_fb (x : Reg) (w : Byte) : (s.setV x w).fb = s.fb := rfl
@[simp] theorem setV_tTimer (x : Reg) (w : Byte) : (s.setV x w).tTimer = s.tTimer := rfl
@[simp] theorem setV_tInstr (x : Reg) (w : Byte) : (s.setV x w).tInstr = s.tInstr := rfl
@[simp] theorem setV_clearReq (x : Reg) (w : Byte) : (s.setV x w).clearReq = s.clearReq := rfl
@[simp] theorem setV_redrawReq (x : Reg) (w : Byte) : (s.setV x w).redrawReq = s.redrawReq := rfl
@[simp] theorem setV_tone (x : Reg) (w : Byte) : (s.setV x w).tone = s.tone := rfl
@[simp] theorem setV_run (x : Reg) (w : Byte) : (s.setV x w).run = s.run := rfl
@[simp] theorem setV_input (x : Reg) (w : Byte) : (s.setV x w).input = s.input := rfl
@[simp] theorem setV_pending (x : Reg) (w : Byte) : (s.setV x w).pending = s.pending := rfl
@[simp] theorem setV_draws (x : Reg) (w : Byte) : (s.setV x w).draws = s.draws := rfl

/-! ### `writeByte` -/

@[simp] theorem writeByte_cfg (a : Nat) (w : Byte) : (s.writeByte a w).cfg = s.cfg := rfl
@[simp] theorem writeByte_mem (a : Nat) (w : Byte) : (s.writeByte a w).mem = s.mem.write s.cfg.font a w := rfl
@[simp] theorem writeByte_v (a : Nat) (w : Byte) : (s.writeByte a w).v = s.v := rfl
@[simp] theorem writeByte_i (a : Nat) (w : Byte) : (s.writeByte a w).i = s.i := rfl
@[simp] theorem writeByte_pc (a : Nat) (w : Byte) : (s.writeByte a w).pc = s.pc := rfl
@[simp] theorem writeByte_stack (a : Nat) (w : Byte) : (s.writeByte a w).stack = s.stack := rfl
@[simp] theorem writeByte_sp (a : Nat) (w : Byte) : (s.writeByte a w).sp = s.sp := rfl
@[simp] theorem writeByte_dt (a : Nat) (w : Byte) : (s.writeByte a w).dt = s.dt := rfl
@[simp] theorem writeByte_st (a : Nat) (w : Byte) : (s.writeByte a w).st = s.st := rfl
@[simp] theorem writeByte_fb (a : Nat) (w : Byte) : (s.writeByte a w).fb = s.fb := rfl
@[simp] theorem writeByte_tTimer (a : Nat) (w : Byte) : (s.writeByte a w).tTimer = s.tTimer := rfl
@[simp] theorem writeByte_tInstr (a : Nat) (w : Byte) : (s.writeByte a w).tInstr = s.tInstr := rfl
@[simp] theorem writeByte_clearReq (a : Nat) (w : Byte) : (s.writeByte a w).clearReq = s.clearReq := rfl
@[simp] theorem writeByte_redrawReq (a : Nat) (w : Byte) : (s.writeByte a w).redrawReq = s.redrawReq := rfl
@[simp] theorem writeByte_tone (a : Nat) (w : Byte) : (s.writeByte a w).tone = s.tone := rfl
@[simp] theorem writeByte_run (a : Nat) (w : Byte) : (s.writeByte a w).run = s.run := rfl
@[simp] theorem writeByte_input (a : Nat) (w : Byte) : (s.writeByte a w).input = s.input := rfl
@[simp] theorem writeByte_pending (a : Nat) (w : Byte) : (s.writeByte a w).pending = s.pending := rfl
@[simp] theorem writeByte_draws (a : Nat) (w : Byte) : (s.writeByte a w).draws = s.draws := rfl

/-! ### `setPc` -/

@[simp] theorem setPc_cfg (p : Word) : (s.setPc p).cfg = s.cfg := rfl
@[simp] theorem setPc_mem (p : Word) : (s.setPc p).mem = s.mem := rfl
@[simp] theorem setPc_v (p : Word) : (s.setPc p).v = s.v := rfl
@[simp] theorem setPc_i (p : Word) : (s.setPc p).i = s.i := rfl
@[simp] theorem setPc_pc (p : Word) : (s.setPc p).pc = p := rfl
@[simp] theorem setPc_stack (p : Word) : (s.setPc p).stack = s.stack := rfl
@[simp] theorem setPc_sp (p : Word) : (s.setPc p).sp = s.sp := rfl
@[simp] theorem setPc_dt (p : Word) : (s.setPc p).dt = s.dt := rfl
@[simp] theorem setPc_st (p : Word) : (s.setPc p).st = s.st := rfl
@[simp] theorem setPc_fb (p : Word) : (s.setPc p).fb = s.fb := rfl
@[simp] theorem setPc_tTimer (p : Word) : (s.setPc p).tTimer = s.tTimer := rfl
@[simp] theorem setPc_tInstr (p : Word) : (s.setPc p).tInstr = s.tInstr := rfl
@[simp] theorem setPc_clearReq (p : Word) : (s.setPc p).clearReq = s.clearReq := rfl
@[simp] theorem setPc_redrawReq (p : Word) : (s.setPc p).redrawReq = s.redrawReq := rfl
@[simp] theorem setPc_tone (p : Word) : (s.setPc p).tone = s.tone := rfl
@[simp] theorem setPc_run (p : Word) : (s.setPc p).run = s.run := rfl
@[simp] theorem setPc_input (p : Word) : (s.setPc p).input = s.input := rfl
@[simp] theorem setPc_pending (p : Word) : (s.setPc p).pending = s.pending := rfl
@[simp] theorem setPc_draws (p : Word) : (s.setPc p).draws = s.draws := rfl

/-! ### `push` -/

@[simp] theorem push_cfg (w : Word) : (s.push w).cfg = s.cfg := rfl
@[simp] theorem push_mem (w : Word) : (s.push w).mem = s.mem := rfl
@[simp] theorem push_v (w : Word) : (s.push w).v = s.v := rfl
@[simp] theorem push_i (w : Word) : (s.push w).i = s.i := rfl
@[simp] theorem push_pc (w : Word) : (s.push w).pc = s.pc := rfl
@[simp] theorem push_stack (w : Word) : (s.push w).stack = s.stack.set (s.sp + 1) w := rfl
@[simp] theorem push_sp (w : Word) : (s.push w).sp = s.sp + 1 := rfl
@[simp] theorem push_dt (w : Word) : (s.push w).dt = s.dt := rfl
@[simp] theorem push_st (w : Word) : (s.push w).st = s.st := rfl
@[simp] theorem push_fb (w : Word) : (s.push w).fb = s.fb := rfl
@[simp] theorem push_tTimer (w : Word) : (s.push w).tTimer = s.tTimer := rfl
@[simp] theorem push_tInstr (w : Word) : (s.push w).tInstr = s.tInstr := rfl
@[simp] theorem push_clearReq (w : Word) : (s.push w).clearReq = s.clearReq := rfl
@[simp] theorem push_redrawReq (w : Word) : (s.push w).redrawReq = s.redrawReq := rfl
@[simp] theorem push_tone (w : Word) : (s.push w).tone = s.tone := rfl
@[simp] theorem push_run (w : Word) : (s.push w).run = s.run := rfl
@[simp] theorem push_input (w : Word) : (s.push w).input = s.input := rfl
@[simp] theorem push_pending (w : Word) : (s.push w).pending = s.pending := rfl
@[simp] theorem push_draws (w : Word) : (s.push w).draws = s.draws := rfl

/-! ### `pop` -/

@[simp] theorem pop_cfg : (s.pop).cfg = s.cfg := rfl
@[simp] theorem pop_mem : (s.pop).mem = s.mem := rfl
@[simp] theorem pop_v : (s.pop).v = s.v := rfl
@[simp] theorem pop_i : (s.pop).i = s.i := rfl
@[simp] theorem pop_pc : (s.pop).pc = s.pc := rfl
@[simp] theorem pop_stack : (s.pop).stack = s.stack := rfl
@[simp] theorem pop_sp : (s.pop).sp = s.sp - 1 := rfl
@[simp] theorem pop_dt : (s.pop).dt = s.dt := rfl
@[simp] theorem pop_st : (s.pop).st = s.st := rfl
@[simp] theorem pop_fb : (s.pop).fb = s.fb := rfl
@[simp] theorem pop_tTimer : (s.pop).tTimer = s.tTimer := rfl
@[simp] theorem pop_tInstr : (s.pop).tInstr = s.tInstr := rfl
@[simp] theorem pop_clearReq : (s.pop).clearReq = s.clearReq := rfl
@[simp] theorem pop_redrawReq : (s.pop).redrawReq = s.redrawReq := rfl
@[simp] theorem pop_tone : (s.pop).tone = s.tone := rfl
@[simp] theorem pop_run : (s.pop).run = s.run := rfl
@[simp] theorem pop_input : (s.pop).input = s.input := rfl
@[simp] theorem pop_pending : (s.pop).pending = s.pending := rfl
@[simp] theorem pop_draws : (s.pop).draws = s.draws := rfl

end State

/-! ### `raiseFatal` -/

@[simp] theorem raiseFatal_cfg (c : Cause) : (raiseFatal c s).cfg = s.cfg := rfl
@[simp] theorem raiseFatal_mem (c : Cause) : (raiseFatal c s).mem = s.mem := rfl
@[simp] theorem raiseFatal_v (c : Cause) : (raiseFatal c s).v = s.v := rfl
@[simp] theorem raiseFatal_i (c : Cause) : (raiseFatal c s).i = s.i := rfl
@[simp] theorem raiseFatal_pc (c : Cause) : (raiseFatal c s).pc = s.pc := rfl
@[simp] theorem raiseFatal_stack (c : Cause) : (raiseFatal c s).stack = s.stack := rfl
@[simp] theorem raiseFatal_sp (c : Cause) : (raiseFatal c s).sp = s.sp := rfl
@[simp] theorem raiseFatal_dt (c : Cause) : (raiseFatal c s).dt = s.dt := rfl
@[simp] theorem raiseFatal_st (c : Cause) : (raiseFatal c s).st = s.st := rfl
@[simp] theorem raiseFatal_fb (c : Cause) : (raiseFatal c s).fb = s.fb := rfl
@[simp] theorem raiseFatal_tTimer (c : Cause) : (raiseFatal c s).tTimer = s.tTimer := rfl
@[simp] theorem raiseFatal_tInstr (c : Cause) : (raiseFatal c s).tInstr = s.tInstr := rfl
@[simp] theorem raiseFatal_clearReq (c : Cause) : (raiseFatal c s).clearReq = s.clearReq := rfl
@[simp] theorem raiseFatal_redrawReq (c : Cause) : (raiseFatal c s).redrawReq = s.redrawReq := rfl
@[simp] theorem raiseFatal_tone (c : Cause) : (raiseFatal c s).tone = s.tone := rfl
@[simp] theorem raiseFatal_run (c : Cause) : (raiseFatal c s).run = .halted c := rfl
@[simp] theorem raiseFatal_input (c : Cause) : (raiseFatal c s).input = s.input := rfl
@[simp] theorem raiseFatal_pending (c : Cause) : (raiseFatal c s).pending = s.pending := rfl
@[simp] theorem raiseFatal_draws (c : Cause) : (raiseFatal c s).draws = s.draws := rfl

namespace State

/-! ### `advancePc` and `skipIf` -/

theorem advancePc_eq : s.advancePc = { s with pc := s.pc + 2 } := rfl

theorem skipIf_eq (c : Bool) : skipIf c s = { s with pc := if c then s.pc + 2 else s.pc } := by
  cases c <;> rfl

/-! ### General registers -/

/-- Reading a register after a write: the value written, or what it was. -/
theorem getV_setV (x y : Reg) (w : Byte) : (s.setV x w).getV y = if x = y then w else s.getV y := by
  simp [getV, setV, Vector.getElem_set, Fin.ext_iff]

@[simp] theorem getV_setV_self (x : Reg) (w : Byte) : (s.setV x w).getV x = w := by
  simp [getV_setV]

theorem getV_setV_ne {x y : Reg} (h : x ≠ y) (w : Byte) : (s.setV x w).getV y = s.getV y := by
  simp [getV_setV, h]

/-- Two states that agree outside the registers and on every register are equal. -/
theorem eq_of_getV_eq {s t : State} (h : t = { s with v := t.v }) (hv : ∀ r, t.getV r = s.getV r) : t = s := by
  have : t.v = s.v := by
    apply Vector.ext
    intro j hj
    exact hv ⟨j, hj⟩
  rw [h, this]

@[simp] theorem getV_writeByte (a : Nat) (w : Byte) (x : Reg) : (s.writeByte a w).getV x = s.getV x := rfl
@[simp] theorem getV_setPc (p : Word) (x : Reg) : (s.setPc p).getV x = s.getV x := rfl
@[simp] theorem getV_push (w : Word) (x : Reg) : (s.push w).getV x = s.getV x := rfl
@[simp] theorem getV_pop (x : Reg) : s.pop.getV x = s.getV x := rfl
@[simp] theorem getV_raiseFatal (c : Cause) (x : Reg) : (raiseFatal c s).getV x = s.getV x := rfl

/-! ### Memory reads through the other updates -/

@[simp] theorem readByte_setV (x : Reg) (w : Byte) (a : Nat) : (s.setV x w).readByte a = s.readByte a := rfl
@[simp] theorem readByte_setPc (p : Word) (a : Nat) : (s.setPc p).readByte a = s.readByte a := rfl
@[simp] theorem readByte_push (w : Word) (a : Nat) : (s.push w).readByte a = s.readByte a := rfl
@[simp] theorem readByte_pop (a : Nat) : s.pop.readByte a = s.readByte a := rfl
@[simp] theorem readByte_raiseFatal (c : Cause) (a : Nat) : (raiseFatal c s).readByte a = s.readByte a := rfl

end State

end Sys2Proof.Machine
end

