-- ==== Sys2Proof/Laws/Memory.lean ====
section
/-! SUPPORT. Memory: read after write, the canonical form, and what storing a list of bytes does. -/

namespace Sys2Proof.Machine

namespace Memory

variable (font : Vector Byte 80)

/-! ### The sorted list -/

theorem lookup_put (m : Memory) (a b : Nat) (w : Byte) :
    lookup (put m a w) b = if b = a then some w else lookup m b := by
  induction m with
  | nil => simp [put, lookup]
  | cons c m ih =>
    obtain ⟨d, u⟩ := c
    by_cases h1 : a < d
    · simp [put, h1, lookup]
    · by_cases h2 : a = d
      · subst h2
        simp only [put, lt_irrefl, if_false, if_true, lookup]
        split <;> rfl
      · simp only [put, h1, h2, if_false, lookup, ih]
        by_cases h3 : b = d
        · simp [h3, Ne.symm h2]
        · simp [h3]

/-- An address below every listed one is not listed. -/
theorem lookup_none_of_lt {m : Memory} {a : Nat} (h : ∀ c ∈ m, a < c.1) : lookup m a = none := by
  induction m with
  | nil => rfl
  | cons c m ih =>
    have hc := h c (by simp)
    simp only [lookup, (Nat.ne_of_lt hc), if_false]
    exact ih fun d hd => h d (by simp [hd])

theorem lookup_drop {m : Memory} (hs : m.Pairwise fun c d => c.1 < d.1) (a b : Nat) :
    lookup (drop m a) b = if b = a then none else lookup m b := by
  induction m with
  | nil => simp [drop, lookup]
  | cons c m ih =>
    obtain ⟨d, u⟩ := c
    rw [List.pairwise_cons] at hs
    by_cases h : a = d
    · subst h
      by_cases hb : b = a
      · subst hb; simpa [drop] using lookup_none_of_lt hs.1
      · simp [drop, lookup, hb]
    · simp only [drop, h, if_false, lookup, ih hs.2]
      by_cases hb : b = d
      · simp [hb, Ne.symm h]
      · simp [hb]

theorem mem_put {m : Memory} {a : Nat} {w : Byte} {c : Host.Cell} (h : c ∈ put m a w) :
    c = (a, w) ∨ c ∈ m := by
  induction m with
  | nil => simpa [put] using h
  | cons d m ih =>
    simp only [put] at h
    split at h
    · simpa using h
    · split at h
      · rcases List.mem_cons.1 h with h | h
        · exact .inl h
        · exact .inr (by simp [h])
      · rcases List.mem_cons.1 h with h | h
        · exact .inr (by simp [h])
        · exact (ih h).imp_right fun h => by simp [h]

theorem mem_of_mem_drop {m : Memory} {a : Nat} {c : Host.Cell} (h : c ∈ drop m a) : c ∈ m := by
  induction m with
  | nil => simp [drop] at h
  | cons d m ih =>
    simp only [drop] at h
    split at h
    · simp [h]
    · rcases List.mem_cons.1 h with h | h
      · simp [h]
      · simp [ih h]

theorem pairwise_put {m : Memory} (hs : m.Pairwise fun c d => c.1 < d.1) (a : Nat) (w : Byte) :
    (put m a w).Pairwise fun c d => c.1 < d.1 := by
  induction m with
  | nil => simp [put]
  | cons d m ih =>
    have hs' := List.pairwise_cons.1 hs
    simp only [put]
    split
    · next h =>
      refine List.pairwise_cons.2 ⟨fun c hc => ?_, hs⟩
      rcases List.mem_cons.1 hc with rfl | hc
      · exact h
      · exact Nat.lt_trans h (hs'.1 c hc)
    · split
      · next h => exact List.pairwise_cons.2 ⟨fun c hc => h ▸ hs'.1 c hc, hs'.2⟩
      · next h1 h2 =>
        refine List.pairwise_cons.2 ⟨fun c hc => ?_, ih hs'.2⟩
        rcases mem_put hc with rfl | hc
        · exact Nat.lt_of_le_of_ne (Nat.le_of_not_lt h1) (Ne.symm h2)
        · exact hs'.1 c hc

theorem pairwise_drop {m : Memory} (hs : m.Pairwise fun c d => c.1 < d.1) (a : Nat) :
    (drop m a).Pairwise fun c d => c.1 < d.1 := by
  induction m with
  | nil => simp [drop]
  | cons d m ih =>
    have hs' := List.pairwise_cons.1 hs
    simp only [drop]
    split
    · exact hs'.2
    · exact List.pairwise_cons.2 ⟨fun c hc => hs'.1 c (mem_of_mem_drop hc), ih hs'.2⟩

/-! ### Read after write, and the canonical form -/

/-- Reading after a write, for memory whose addresses rise. -/
theorem read_write {m : Memory} (hs : m.Pairwise fun c d => c.1 < d.1) (a b : Nat) (w : Byte) :
    read font (write font m a w) b = if b = a then w else read font m b := by
  unfold read write
  by_cases hw : w = unlisted font a
  · rw [if_pos hw, lookup_drop hs]
    by_cases hb : b = a
    · simp [hb, hw]
    · simp [hb]
  · rw [if_neg hw, lookup_put]
    by_cases hb : b = a <;> simp [hb]

theorem pairwise_write {m : Memory} (hs : m.Pairwise fun c d => c.1 < d.1) (a : Nat) (w : Byte) :
    (write font m a w).Pairwise fun c d => c.1 < d.1 := by
  unfold write
  split
  · exact pairwise_drop hs a
  · exact pairwise_put hs a w

/-- A write inside the address space keeps the canonical form. -/
theorem wf_write {m : Memory} (h : wf font m) {a : Nat} (ha : a < Config.memSize) (w : Byte) :
    wf font (write font m a w) := by
  refine ⟨pairwise_write font h.1 a w, fun c hc => ?_⟩
  unfold write at hc
  split at hc
  · exact h.2 c (mem_of_mem_drop hc)
  · next hw =>
    rcases mem_put hc with rfl | hc
    · exact ⟨ha, hw⟩
    · exact h.2 c hc

theorem wf_nil : wf font [] := ⟨List.Pairwise.nil, fun _ h => nomatch h⟩

/-- Canonical memories that read alike are equal. -/
theorem eq_of_read_eq {m n : Memory} (hm : wf font m) (hn : wf font n)
    (h : ∀ a, read font m a = read font n a) : m = n := by
  induction m generalizing n with
  | nil =>
    cases n with
    | nil => rfl
    | cons d n =>
      obtain ⟨e, u⟩ := d
      have := h e
      simp only [read, lookup, if_true, Option.getD_none, Option.getD_some] at this
      exact absurd this.symm (hn.2 (e, u) (by simp)).2
  | cons c m ih =>
    obtain ⟨d, u⟩ := c
    have hm1 := List.pairwise_cons.1 hm.1
    cases n with
    | nil =>
      have := h d
      simp only [read, lookup, if_true, Option.getD_none, Option.getD_some] at this
      exact absurd this (hm.2 (d, u) (by simp)).2
    | cons c' n =>
      obtain ⟨e, w⟩ := c'
      have hn1 := List.pairwise_cons.1 hn.1
      have hde : d = e := by
        rcases Nat.lt_trichotomy d e with hlt | heq | hgt
        · have hl : lookup ((e, w) :: n) d = none :=
            lookup_none_of_lt fun c hc => by
              rcases List.mem_cons.1 hc with rfl | hc
              · exact hlt
              · exact Nat.lt_trans hlt (hn1.1 c hc)
          have := h d
          simp only [read, hl] at this
          simp only [lookup, if_true, Option.getD_none, Option.getD_some] at this
          exact absurd this (hm.2 (d, u) (by simp)).2
        · exact heq
        · have hl : lookup ((d, u) :: m) e = none :=
            lookup_none_of_lt fun c hc => by
              rcases List.mem_cons.1 hc with rfl | hc
              · exact hgt
              · exact Nat.lt_trans hgt (hm1.1 c hc)
          have := h e
          simp only [read, hl] at this
          simp only [lookup, if_true, Option.getD_none, Option.getD_some] at this
          exact absurd this.symm (hn.2 (e, w) (by simp)).2
      subst hde
      have huw : u = w := by simpa [read, lookup] using h d
      subst huw
      congr 1
      refine ih ⟨hm1.2, fun c hc => hm.2 c (by simp [hc])⟩ ⟨hn1.2, fun c hc => hn.2 c (by simp [hc])⟩ fun a => ?_
      by_cases had : a = d
      · subst had
        simp only [read, lookup_none_of_lt hm1.1, lookup_none_of_lt hn1.1]
      · simpa [read, lookup, had] using h a

end Memory

namespace State

variable (s : State)

/-! ### Bytes of the state -/

theorem readByte_writeByte (h : s.mem.wf s.cfg.font) (a b : Nat) (w : Byte) :
    (s.writeByte a w).readByte b = if b = a then w else s.readByte b :=
  Memory.read_write s.cfg.font h.1 a b w

theorem addr_lt (a : Nat) : addr a < Config.memSize := by
  unfold addr
  split
  · assumption
  · exact Nat.mod_lt a (by decide)

theorem addr_of_lt {a : Nat} (h : a < Config.memSize) : addr a = a := if_pos h

theorem addr_eq_mod (a : Nat) : addr a = a % Config.memSize := by
  unfold addr
  split
  · next h => exact (Nat.mod_eq_of_lt h).symm
  · rfl

/-- Offsets less than 4096 apart reach different addresses. -/
theorem addr_inj {a j k : Nat} (hj : j < Config.memSize) (hk : k < Config.memSize)
    (h : addr (a + j) = addr (a + k)) : j = k := by
  simp only [addr_eq_mod, Config.memSize] at *
  omega

/-- Storing bytes changes memory and nothing else. -/
theorem storeBytes_eq (ws : List Byte) :
    ∀ (s : State) (a : Nat), s.storeBytes a ws = { s with mem := (s.storeBytes a ws).mem } := by
  induction ws with
  | nil => intro s a; rfl
  | cons w ws ih =>
    intro s a
    rw [storeBytes, ih]
    rfl

@[simp] theorem storeBytes_cfg (a : Nat) (ws : List Byte) : (s.storeBytes a ws).cfg = s.cfg := by
  rw [storeBytes_eq]

@[simp] theorem getV_storeBytes (a : Nat) (ws : List Byte) (x : Reg) :
    (s.storeBytes a ws).getV x = s.getV x := by
  rw [storeBytes_eq]; rfl

/-- Storing bytes keeps the canonical form. -/
theorem storeBytes_wf (ws : List Byte) :
    ∀ (s : State) (a : Nat), s.mem.wf s.cfg.font → (s.storeBytes a ws).mem.wf s.cfg.font := by
  induction ws with
  | nil => intro s a h; exact h
  | cons w ws ih =>
    intro s a h
    exact ih (s.writeByte (addr a) w) (a + 1) (Memory.wf_write _ h (addr_lt a) w)

/-- Storing bytes leaves every address it does not reach. -/
theorem readByte_storeBytes_other (ws : List Byte) :
    ∀ (s : State) (a b : Nat), s.mem.wf s.cfg.font → (∀ k, k < ws.length → b ≠ addr (a + k)) →
      (s.storeBytes a ws).readByte b = s.readByte b := by
  induction ws with
  | nil => intro s a b _ _; rfl
  | cons w ws ih =>
    intro s a b h hb
    rw [storeBytes, ih (s.writeByte (addr a) w) (a + 1) b (Memory.wf_write _ h (addr_lt a) w) fun k hk => by
      have := hb (k + 1) (by simpa using hk)
      rwa [Nat.add_assoc, Nat.add_comm 1 k]]
    rw [readByte_writeByte s h]
    exact if_neg (hb 0 (by simp))

/-- Each stored byte reads back, for at most 4096 bytes. -/
theorem readByte_storeBytes (ws : List Byte) :
    ∀ (s : State) (a k : Nat), s.mem.wf s.cfg.font → (hk : k < ws.length) → ws.length ≤ Config.memSize →
      (s.storeBytes a ws).readByte (addr (a + k)) = ws[k] := by
  induction ws with
  | nil => intro s a k _ hk; simp at hk
  | cons w ws ih =>
    intro s a k h hk hl
    have hl' : ws.length < Config.memSize := by simpa using hl
    have h' : (s.writeByte (addr a) w).mem.wf (s.writeByte (addr a) w).cfg.font :=
      Memory.wf_write _ h (addr_lt a) w
    cases k with
    | zero =>
      rw [storeBytes, readByte_storeBytes_other ws _ _ _ h' fun k hk' heq => by
        have : (0 : Nat) = k + 1 :=
          addr_inj (a := a) (by decide) (by omega) (by rwa [Nat.add_assoc, Nat.add_comm 1 k] at heq)
        omega]
      simp [readByte_writeByte s h]
    | succ k =>
      have hk' : k < ws.length := by simpa using hk
      rw [storeBytes, ← Nat.add_assoc, Nat.add_right_comm]
      simpa using ih (s.writeByte (addr a) w) (a + 1) k h' hk' hl'.le

end State

end Sys2Proof.Machine
end

