-- ==== Sys2Proof/Laws/Display.lean ====
section
/-! SUPPORT. The cells a sprite hits: each of them once, inside the framebuffer, and exactly at the sprite's set bits; and
what drawing changes. -/

namespace Sys2Proof.Machine

variable {cfg : Config} {xpos ypos rows : Nat}

/-- The cells of one screen row: those of the set bits that fall on it. -/
theorem mem_rowCells {row : Nat} {sprite : Byte} {c : Nat} :
    c ∈ rowCells cfg xpos row sprite ↔
      ∃ b, b < 8 ∧ xpos + b < cfg.fbW ∧ sprite.getLsbD (7 - b) = true ∧ c = row * cfg.fbW + (xpos + b) := by
  have h8 : ∀ b : Nat, b ∈ [0, 1, 2, 3, 4, 5, 6, 7] ↔ b < 8 := by intro b; simp; omega
  unfold rowCells
  rw [List.mem_filterMap]
  constructor
  · rintro ⟨b, hb, h⟩
    split at h
    · next hc => exact ⟨b, (h8 b).1 hb, hc.1, hc.2, (Option.some.inj h).symm⟩
    · exact absurd h (by simp)
  · rintro ⟨b, hb, h1, h2, rfl⟩
    exact ⟨b, (h8 b).2 hb, if_pos ⟨h1, h2⟩⟩

theorem rowCells_pairwise (row : Nat) (sprite : Byte) : (rowCells cfg xpos row sprite).Pairwise (· < ·) := by
  unfold rowCells
  refine List.Pairwise.filterMap _ (R := (· < ·)) (fun a b hab c hc d hd => ?_) (by decide)
  split at hc
  · split at hd
    · cases hc; cases hd; omega
    · simp at hd
  · simp at hc

theorem mem_spriteCells {s : State} {c : Nat} :
    c ∈ spriteCells s xpos ypos rows ↔
      ∃ r b, r < rows ∧ b < 8 ∧ xpos + b < s.cfg.fbW ∧
        (s.readByte (State.addr (s.i.toNat + r))).getLsbD (7 - b) = true ∧
        c = (ypos + r) * s.cfg.fbW + (xpos + b) := by
  simp only [spriteCells, List.mem_flatMap, List.mem_range, mem_rowCells]
  constructor
  · rintro ⟨r, hr, b, h⟩; exact ⟨r, b, hr, h⟩
  · rintro ⟨r, b, hr, h⟩; exact ⟨r, hr, b, h⟩

theorem spriteCells_pairwise (s : State) (xpos ypos rows : Nat) :
    (spriteCells s xpos ypos rows).Pairwise (· < ·) := by
  unfold spriteCells
  rw [List.pairwise_flatMap]
  refine ⟨fun r _ => rowCells_pairwise _ _, ?_⟩
  refine List.Pairwise.imp ?_ List.pairwise_lt_range
  intro r q hrq c hc d hd
  obtain ⟨b, _, hb, _, rfl⟩ := mem_rowCells.1 hc
  obtain ⟨e, _, he, _, rfl⟩ := mem_rowCells.1 hd
  have : (ypos + r + 1) * s.cfg.fbW ≤ (ypos + q) * s.cfg.fbW := Nat.mul_le_mul_right _ (by omega)
  rw [Nat.add_mul, Nat.one_mul] at this
  omega

/-- No cell is hit twice. -/
theorem spriteCells_nodup (s : State) (xpos ypos rows : Nat) : (spriteCells s xpos ypos rows).Nodup :=
  (spriteCells_pairwise s xpos ypos rows).imp Nat.ne_of_lt

/-- Every cell hit is a cell of the framebuffer, when every row is. -/
theorem spriteCells_lt {s : State} (h : ypos + rows ≤ s.cfg.fbH) {c : Nat}
    (hc : c ∈ spriteCells s xpos ypos rows) : c < s.cfg.fbW * s.cfg.fbH := by
  obtain ⟨r, b, hr, _, hb, _, rfl⟩ := mem_spriteCells.1 hc
  have : (ypos + r + 1) * s.cfg.fbW ≤ s.cfg.fbH * s.cfg.fbW := Nat.mul_le_mul_right _ (by omega)
  rw [Nat.add_mul, Nat.one_mul, Nat.mul_comm s.cfg.fbH] at this
  omega

/-- Two cells of the screen have the same index only if they are the same cell. -/
theorem cell_index_inj {w c1 c2 r1 r2 : Nat} (h1 : c1 < w) (h2 : c2 < w) (h : r1 * w + c1 = r2 * w + c2) :
    c1 = c2 ∧ r1 = r2 := by
  have hw : 0 < w := by omega
  have hr : r1 = r2 := by
    have := congrArg (· / w) h
    simpa [Nat.add_comm (_ * w), Nat.add_mul_div_right _ _ hw, Nat.div_eq_of_lt h1, Nat.div_eq_of_lt h2] using this
  subst hr
  exact ⟨by omega, rfl⟩

theorem spriteRows_le (cfg : Config) (ypos : Nat) (n : BitVec 4) (h : ypos < cfg.fbH) :
    ypos + spriteRows cfg ypos n ≤ cfg.fbH := by
  unfold spriteRows; omega

/-! ### `drawSprite` -/

theorem drawSprite_eq (s : State) (xpos ypos rows : Nat) :
    drawSprite xpos ypos rows s =
      { s with
        v := (drawSprite xpos ypos rows s).v
        fb := (s.fb.xorCells (spriteCells s xpos ypos rows)).1
        redrawReq := true } := rfl

theorem getV_drawSprite (s : State) (xpos ypos rows : Nat) (r : Reg) :
    (drawSprite xpos ypos rows s).getV r =
      if r = vf then flagByte (s.fb.xorCells (spriteCells s xpos ypos rows)).2 else s.getV r := by
  have := State.getV_setV s vf r (flagByte (s.fb.xorCells (spriteCells s xpos ypos rows)).2)
  simp only [eq_comm (a := vf)] at this
  exact this

theorem readByte_drawSprite (s : State) (xpos ypos rows a : Nat) :
    (drawSprite xpos ypos rows s).readByte a = s.readByte a := rfl

/-! ### Dxyn -/

/-- Dxyn draws whenever its rows on the screen are readable. -/
theorem execDrw_of_readable {x y : Reg} {n : BitVec 4} {s : State} (hr : spriteReadable s y n) :
    execDrw x y n s = .next (drawSprite (spriteX s.cfg (s.getV x)) (spriteY s.cfg (s.getV y))
      (spriteRows s.cfg (spriteY s.cfg (s.getV y)) n) s) := by
  refine if_neg ?_
  rintro ⟨h0, h1, h2⟩
  rcases hr with hr | hr
  · rw [hr] at h2; cases h2
  · simp only [Config.memSize] at h1
    simp only [spriteRows, spriteY] at h0 h1
    have := hr (min n.toNat (s.cfg.fbH - (s.getV y).toNat % s.cfg.fbH) - 1) (by omega) (by omega)
    omega

/-- A screen cell is hit exactly when the sprite has a set bit there. -/
theorem spriteBit_iff {x y : Reg} {n : BitVec 4} {s : State} {col row : Nat} (hc : col < s.cfg.fbW)
    (hrow : row < s.cfg.fbH) :
    spriteBit s x y n col row = true ↔
      row * s.cfg.fbW + col ∈ spriteCells s (spriteX s.cfg (s.getV x)) (spriteY s.cfg (s.getV y))
        (spriteRows s.cfg (spriteY s.cfg (s.getV y)) n) := by
  rw [mem_spriteCells]
  simp only [spriteBit, Bool.and_eq_true, decide_eq_true_eq, spriteX, spriteY, spriteRows, State.addr_eq_mod,
    Config.memSize]
  constructor
  · rintro ⟨⟨h1, h2, h3, h4⟩, h5⟩
    refine ⟨row - (s.getV y).toNat % s.cfg.fbH, col - (s.getV x).toNat % s.cfg.fbW, by omega, by omega, by omega,
      h5, ?_⟩
    rw [Nat.add_sub_of_le h3, Nat.add_sub_of_le h1]
  · rintro ⟨r, b, h1, h2, h3, h4, h5⟩
    have hy : (s.getV y).toNat % s.cfg.fbH < s.cfg.fbH := Nat.mod_lt _ (by omega)
    obtain ⟨rfl, rfl⟩ := cell_index_inj hc h3 h5
    refine ⟨by omega, ?_⟩
    rw [Nat.add_sub_cancel_left, Nat.add_sub_cancel_left]
    exact h4

end Sys2Proof.Machine
end

