-- ==== Sys2Proof/Laws/Registers.lean ====
section
/-! SUPPORT. What the shared operations over registers do: a write with a flag, loading a run of registers, and the bytes
of a run of registers. -/

namespace Sys2Proof.Machine

/-! ### `writeWithFlag` -/

theorem writeWithFlag_eq (x : Reg) (r f : Byte) (s : State) :
    writeWithFlag x r f s = { s with v := (writeWithFlag x r f s).v } := by
  unfold writeWithFlag
  split <;> rfl

theorem readByte_writeWithFlag (x : Reg) (r f : Byte) (s : State) (a : Nat) :
    (writeWithFlag x r f s).readByte a = s.readByte a := by
  rw [writeWithFlag_eq]; rfl

/-- The result and the flag each arrive, when the destination is not VF. -/
theorem getV_writeWithFlag {x : Reg} (hx : x ≠ vf) (r f : Byte) (s : State) (y : Reg) :
    (writeWithFlag x r f s).getV y = if y = x then r else if y = vf then f else s.getV y := by
  unfold writeWithFlag
  split
  · rw [State.getV_setV, State.getV_setV]
    simp only [eq_comm (a := x), eq_comm (a := vf)]
  · rw [State.getV_setV, State.getV_setV]
    by_cases h : y = x
    · subst h; simp [Ne.symm hx]
    · simp [eq_comm (a := vf), eq_comm (a := x), h]

/-- With VF as the destination, the later write stays. -/
theorem getV_writeWithFlag_vf (r f : Byte) (s : State) (y : Reg) :
    (writeWithFlag vf r f s).getV y =
      if y = vf then (match s.cfg.vfDestOrder with | .resultWins => r | .flagWins => f) else s.getV y := by
  unfold writeWithFlag
  by_cases h : y = vf
  · subst h; split <;> simp_all
  · split <;> simp [State.getV_setV, eq_comm (a := vf), h]

/-! ### `loadFrom` -/

namespace State

theorem loadFrom_eq (a : Nat) (ks : List Reg) :
    ∀ s : State, loadFrom a ks s = { s with v := (loadFrom a ks s).v } := by
  induction ks with
  | nil => intro s; rfl
  | cons k ks ih => intro s; rw [loadFrom, ih]; rfl

theorem readByte_loadFrom (a : Nat) (ks : List Reg) (s : State) (b : Nat) :
    (loadFrom a ks s).readByte b = s.readByte b := by
  rw [loadFrom_eq]; rfl

theorem getV_loadFrom_other (a : Nat) (ks : List Reg) :
    ∀ (s : State) {r : Reg}, r ∉ ks → (loadFrom a ks s).getV r = s.getV r := by
  induction ks with
  | nil => intro s r _; rfl
  | cons k ks ih =>
    intro s r hr
    rw [loadFrom, ih _ (fun h => hr (by simp [h])), getV_setV_ne]
    exact fun h => hr (by simp [h])

theorem getV_loadFrom (a : Nat) (ks : List Reg) :
    ∀ (s : State) {r : Reg}, ks.Nodup → r ∈ ks → (loadFrom a ks s).getV r = s.readByte (addr (a + r.val)) := by
  induction ks with
  | nil => intro s r _ hr; simp at hr
  | cons k ks ih =>
    intro s r hn hr
    have hn' := List.nodup_cons.1 hn
    rw [loadFrom]
    rcases List.mem_cons.1 hr with rfl | hr
    · rw [getV_loadFrom_other a ks _ hn'.1, getV_setV_self]
    · rw [ih _ hn'.2 hr, readByte_setV]

/-! ### `regsUpTo` -/

theorem mem_regsUpTo : ∀ {x k : Reg}, k ∈ regsUpTo x ↔ k ≤ x := by decide
theorem regsUpTo_nodup : ∀ x : Reg, (regsUpTo x).Nodup := by decide
theorem length_regsUpTo : ∀ x : Reg, (regsUpTo x).length = x.val + 1 := by decide
theorem getElem?_regsUpTo : ∀ x k : Reg, k ≤ x → (regsUpTo x)[k.val]? = some k := by decide

end State

/-! ### `regBytes` -/

@[simp] theorem length_regBytes (s : State) (x : Reg) : (regBytes s x).length = x.val + 1 := by
  simp [regBytes, State.length_regsUpTo]

theorem getElem_regBytes (s : State) (x k : Reg) (hk : k ≤ x) (h : k.val < (regBytes s x).length) :
    (regBytes s x)[k.val] = s.getV k := by
  have := State.getElem?_regsUpTo x k hk
  rw [List.getElem?_eq_some_iff] at this
  obtain ⟨_, h'⟩ := this
  simp [regBytes, h']

end Sys2Proof.Machine
end

