-- ==== Sys2Proof/Laws/Exec.lean ====
section
/-! SUPPORT. What no instruction writes: the gate timestamps and TONE (rule R109), the configuration and the host's side. -/

namespace Sys2Proof.Machine

/-- An instruction that answers a next state has kept the configuration, the gate timestamps, TONE and the host's side. -/
theorem exec_eq {i : Instr} {s t : State} (h : exec i s = .next t) :
    t = { s with
      mem := t.mem, v := t.v, i := t.i, pc := t.pc, stack := t.stack, sp := t.sp, dt := t.dt, st := t.st
      fb := t.fb, clearReq := t.clearReq, redrawReq := t.redrawReq, run := t.run } := by
  cases i <;> simp only [exec, execCls, execRet, execJp, execCall, execSeImm, execSneImm, execSeReg, execLdImm,
    execAddImm, execLdReg, execOrReg, execAndReg, execXorReg, execAddReg, execSub, execShr, execSubn, execShl,
    execSneReg, execLdI, execJpV0, execRnd, execDrw, execSkp, execSknp, execLdVxDt, execLdVxK, execLdDtVx,
    execLdStVx, execAddI, execLdF, execLdB, execStoreRegs, execLoadRegs, execUnmapped] at h
  all_goals try split at h
  all_goals cases h
  all_goals first
    | rfl
    | (rw [State.skipIf_eq])
    | (rw [writeWithFlag_eq])
    | (rw [State.storeBytes_eq])
    | (rw [State.loadFrom_eq])

end Sys2Proof.Machine
end

