-- ==== Sys2Proof/Laws/Step.lean ====
section
/-! SUPPORT. What one step can do: the cases of a host call, and the phases of a step. -/

namespace Sys2Proof.Machine

variable {s : State}

/-! ### The host call of a step -/

theorem step_halted {c : Cause} (h : s.run = .halted c) : step s = .fault (.halted c) := by
  simp [step, hostStep, h]

theorem step_given {input : StepInput} {rest : List HostCall} (hr : s.run = .running)
    (hp : s.pending = .step input :: rest) : step s = stepCall input { s with pending := rest } := by
  simp [step, hostStep, hr, hp]

theorem step_free (hr : s.run = .running) (hp : s.pending = []) :
    step s = stepCall (freeStepInput s.draws) { s with draws := s.draws + 1 } := by
  simp [step, hostStep, hr, hp]

theorem step_key_given {x : Reg} {e : KeyEvent} {rest : List HostCall} (hr : s.run = .awaitKey x)
    (hp : s.pending = .keyEvent e :: rest) : step s = keyCall x e { s with pending := rest } := by
  simp [step, hostStep, hr, hp]

theorem step_key_free {x : Reg} (hr : s.run = .awaitKey x) (hp : s.pending = []) :
    step s = keyCall x (freeKeyAnswer s.draws) { s with draws := s.draws + 1 } := by
  simp [step, hostStep, hr, hp]

/-- The given call is one that RUN does not enable. -/
def NotEnabled (s : State) : Prop :=
  (∃ e rest, s.run = .running ∧ s.pending = .keyEvent e :: rest) ∨
  (∃ x input rest, s.run = .awaitKey x ∧ s.pending = .step input :: rest)

/-- Every step is one of these: a `Step` call on the state less its call, a key event on the state less its call, or no
transition at all. -/
theorem step_cases (s : State) :
    (∃ input s', s.run = .running ∧ step s = stepCall input s' ∧
      s' = { s with pending := s'.pending, draws := s'.draws }) ∨
    (∃ x e s', s.run = .awaitKey x ∧ step s = keyCall x e s' ∧
      s' = { s with pending := s'.pending, draws := s'.draws }) ∨
    (∃ c, s.run = .halted c ∧ step s = .fault (.halted c)) ∨
    (NotEnabled s ∧ ∃ r, step s = .refused r) := by
  cases hr : s.run with
  | halted c => exact .inr (.inr (.inl ⟨c, rfl, step_halted hr⟩))
  | running =>
    rcases hp : s.pending with _ | ⟨call, rest⟩
    · exact .inl ⟨_, _, rfl, step_free hr hp, by rw [← hr]⟩
    · cases call with
      | step input => exact .inl ⟨_, _, rfl, step_given hr hp, by rw [← hr]⟩
      | keyEvent e =>
        exact .inr (.inr (.inr ⟨.inl ⟨e, rest, hr, hp⟩, .keyEventWhileRunning, by simp [step, hostStep, hr, hp]⟩))
  | awaitKey x =>
    rcases hp : s.pending with _ | ⟨call, rest⟩
    · exact .inr (.inl ⟨x, _, _, rfl, step_key_free hr hp, by rw [← hr]⟩)
    · cases call with
      | keyEvent e => exact .inr (.inl ⟨x, e, _, rfl, step_key_given hr hp, by rw [← hr]⟩)
      | step input =>
        exact .inr (.inr (.inr ⟨.inr ⟨x, input, rest, hr, hp⟩, .stepWhileAwaitingKey,
          by simp [step, hostStep, hr, hp]⟩))

/-- A key event that answers a next state has stored a key or ended the run. -/
theorem keyCall_next {x : Reg} {e : KeyEvent} {t : State} (h : keyCall x e s = .next t) :
    (∃ k, k < 16 ∧ e = .pressed k ∧ t = { s.setV x (BitVec.ofNat 8 k) with run := .running }) ∨
    (e = .cancelled ∧ t = raiseFatal .keyWaitCancelled s) := by
  cases e with
  | pressed k =>
    simp only [keyCall] at h
    split at h
    · next hk => exact .inl ⟨k, hk, rfl, (Host.Outcome.next.inj h).symm⟩
    · exact absurd h (by simp)
  | cancelled => exact .inr ⟨rfl, (Host.Outcome.next.inj h).symm⟩

/-! ### The phases of a `Step` call -/

/-- A `Step` call is the timer phase, then an instruction, an out-of-bounds fetch, or nothing. -/
theorem stepCall_cases (input : StepInput) (s : State) :
    (¬ InstrDue s input.now ∧ stepCall input s = .next (timerPhase input s)) ∨
    (InstrDue s input.now ∧ FetchFails s ∧ stepCall input s =
      .next { timerPhase input s with tInstr := input.now, run := .halted .programOutOfBounds }) ∨
    (InstrDue s input.now ∧ ¬ FetchFails s ∧ stepCall input s =
      exec (decode (wordAt s s.pc.toNat)) { timerPhase input s with tInstr := input.now, pc := s.pc + 2 }) := by
  have hpc : (timerPhase input s).pc = s.pc := by unfold timerPhase; split <;> rfl
  have hw : wordAt (timerPhase input s) s.pc.toNat = wordAt s s.pc.toNat := by unfold timerPhase; split <;> rfl
  unfold stepCall instrTick
  by_cases hd : InstrDue s input.now
  · rw [if_pos hd]
    by_cases hf : FetchFails s
    · refine .inr (.inl ⟨hd, hf, ?_⟩)
      rw [if_pos (show FetchFails (timerPhase input s) by rw [FetchFails, hpc]; exact hf)]
      rfl
    · refine .inr (.inr ⟨hd, hf, ?_⟩)
      rw [if_neg (show ¬ FetchFails (timerPhase input s) by rw [FetchFails, hpc]; exact hf), hpc, hw]
      rw [State.advancePc_eq]
  · exact .inl ⟨hd, if_neg hd⟩

theorem timerPhase_due {input : StepInput} (h : TimerDue s input.now) :
    timerPhase input s = timerTick input.now (beginStep input s) := if_pos h

theorem timerPhase_not_due {input : StepInput} (h : ¬ TimerDue s input.now) :
    timerPhase input s = beginStep input s := if_neg h

/-- The timer phase touches the sampled inputs, the flags, the timers and `T_TIMER` alone. -/
theorem timerPhase_eq (input : StepInput) (s : State) :
    timerPhase input s = { s with
      input := input, clearReq := false, redrawReq := false, tone := (timerPhase input s).tone
      tTimer := (timerPhase input s).tTimer, dt := (timerPhase input s).dt, st := (timerPhase input s).st } := by
  unfold timerPhase
  split <;> rfl

theorem toNat_tickDown (t : Byte) : (tickDown t).toNat = t.toNat - 1 := by
  unfold tickDown
  split
  · next h => subst h; rfl
  · next h => bv_omega

end Sys2Proof.Machine
end

