-- ==== Sys2Proof/Laws/Invariant.lean ====
section
/-! SUPPORT. The shared operations keep the invariant, one lemma per operation. -/

namespace Sys2Proof.Machine

namespace State.Inv

variable {s : State}

/-- The invariant says nothing of the registers, the timers, the flags, RUN and the host's side. -/
theorem of_kept {t : State} (h : s.Inv) (hc : t.cfg = s.cfg) (hm : t.mem = s.mem) (hf : t.fb = s.fb)
    (hs : t.stack = s.stack) (hp : t.sp = s.sp) (hpc : t.pc = s.pc) : t.Inv :=
  ⟨hc ▸ h.cfg, by rw [hc, hm]; exact h.mem, by rw [hc, hf]; exact h.fb, by rw [hc, hs]; exact h.stack_size,
    by rw [hc, hp]; exact h.sp_lt, by rw [hs]; exact h.slots_le, by rw [hpc]; exact h.pc_le⟩

theorem setV (h : s.Inv) (x : Reg) (w : Byte) : (s.setV x w).Inv := h.of_kept rfl rfl rfl rfl rfl rfl

theorem raiseFatal (h : s.Inv) (c : Cause) : (raiseFatal c s).Inv := h.of_kept rfl rfl rfl rfl rfl rfl

theorem setPc (h : s.Inv) {p : Word} (hp : p.toNat ≤ 0x10FE) : (s.setPc p).Inv :=
  ⟨h.cfg, h.mem, h.fb, h.stack_size, h.sp_lt, h.slots_le, hp⟩

/-- A skip, after the fetch's advance: pc is then at most 0x1000. -/
theorem skipIf (h : s.Inv) (hpc : s.pc.toNat ≤ 0x1000) (c : Bool) : (State.skipIf c s).Inv := by
  cases c
  · exact h
  · exact h.setPc (by bv_omega)

theorem push (h : s.Inv) (hs : s.sp + 1 < s.cfg.stackSize) {w : Word} (hw : w.toNat ≤ 0x1000) : (s.push w).Inv := by
  refine ⟨h.cfg, h.mem, h.fb, ?_, hs, fun u hu => ?_, h.pc_le⟩
  · rw [State.push_stack, List.length_set]; exact h.stack_size
  · rcases List.mem_or_eq_of_mem_set hu with hu | rfl
    · exact h.slots_le u hu
    · exact hw

theorem pop (h : s.Inv) : s.pop.Inv :=
  ⟨h.cfg, h.mem, h.fb, h.stack_size, Nat.lt_of_le_of_lt (Nat.sub_le _ _) h.sp_lt, h.slots_le, h.pc_le⟩

/-- The value at the top of the stack is a return address. -/
theorem stackTop_le (h : s.Inv) : s.stackTop.toNat ≤ 0x1000 := by
  have hl : s.sp < s.stack.length := by rw [h.stack_size]; exact h.sp_lt
  rw [State.stackTop, List.getD_eq_getElem _ _ hl]
  exact h.slots_le _ (List.getElem_mem hl)

theorem writeWithFlag (h : s.Inv) (x : Reg) (r f : Byte) : (writeWithFlag x r f s).Inv := by
  rw [writeWithFlag_eq]
  exact h.of_kept rfl rfl rfl rfl rfl rfl

theorem loadFrom (h : s.Inv) (a : Nat) (ks : List Reg) : (State.loadFrom a ks s).Inv := by
  rw [State.loadFrom_eq]
  exact h.of_kept rfl rfl rfl rfl rfl rfl

theorem storeBytes (h : s.Inv) (a : Nat) (ws : List Byte) : (s.storeBytes a ws).Inv := by
  have hm := State.storeBytes_wf ws s a h.mem
  rw [State.storeBytes_eq] at hm ⊢
  exact ⟨h.cfg, hm, h.fb, h.stack_size, h.sp_lt, h.slots_le, h.pc_le⟩

theorem drawSprite (h : s.Inv) {xpos ypos rows : Nat} (hr : ypos + rows ≤ s.cfg.fbH) :
    (drawSprite xpos ypos rows s).Inv :=
  ⟨h.cfg, h.mem, Framebuffer.wf_xorCells _ h.fb fun _ hc => spriteCells_lt hr hc, h.stack_size, h.sp_lt,
    h.slots_le, h.pc_le⟩

theorem timerPhase (h : s.Inv) (input : StepInput) : (timerPhase input s).Inv := by
  rw [timerPhase_eq]
  exact h.of_kept rfl rfl rfl rfl rfl rfl

end State.Inv

end Sys2Proof.Machine
end

