-- ==== Sys2Proof/Laws/PerInstr.lean ====
section
/-! SUPPORT. Statements about every instruction, one lemma per constructor: a well-formed instruction's word decodes to
it. -/

namespace Sys2Proof.Laws.RoundTrip

/-- The instruction's word decodes to the instruction. -/
def Statement (i : Instr) : Prop := i.WF → decode (encode i) = i

theorem cls : Statement .cls := fun _ => by decide
theorem ret : Statement .ret := fun _ => by decide
theorem jp (nnn : BitVec 12) : Statement (.jp nnn) := fun _ => by simp [encode, decode]
theorem call (nnn : BitVec 12) : Statement (.call nnn) := fun _ => by simp [encode, decode]
theorem ldI (nnn : BitVec 12) : Statement (.ldI nnn) := fun _ => by simp [encode, decode]
theorem jpV0 (nnn : BitVec 12) : Statement (.jpV0 nnn) := fun _ => by simp [encode, decode]
theorem seImm (x : Reg) (nn : Byte) : Statement (.seImm x nn) := fun _ => by simp [encode, decode]
theorem sneImm (x : Reg) (nn : Byte) : Statement (.sneImm x nn) := fun _ => by simp [encode, decode]
theorem ldImm (x : Reg) (nn : Byte) : Statement (.ldImm x nn) := fun _ => by simp [encode, decode]
theorem addImm (x : Reg) (nn : Byte) : Statement (.addImm x nn) := fun _ => by simp [encode, decode]
theorem rnd (x : Reg) (nn : Byte) : Statement (.rnd x nn) := fun _ => by simp [encode, decode]
theorem seReg (x y : Reg) : Statement (.seReg x y) := fun _ => by simp [encode, decode, decode5]
theorem ldReg (x y : Reg) : Statement (.ldReg x y) := fun _ => by simp [encode, decode, decode8]
theorem orReg (x y : Reg) : Statement (.orReg x y) := fun _ => by simp [encode, decode, decode8]
theorem andReg (x y : Reg) : Statement (.andReg x y) := fun _ => by simp [encode, decode, decode8]
theorem xorReg (x y : Reg) : Statement (.xorReg x y) := fun _ => by simp [encode, decode, decode8]
theorem addReg (x y : Reg) : Statement (.addReg x y) := fun _ => by simp [encode, decode, decode8]
theorem sub (x y : Reg) : Statement (.sub x y) := fun _ => by simp [encode, decode, decode8]
theorem shr (x y : Reg) : Statement (.shr x y) := fun _ => by simp [encode, decode, decode8]
theorem subn (x y : Reg) : Statement (.subn x y) := fun _ => by simp [encode, decode, decode8]
theorem shl (x y : Reg) : Statement (.shl x y) := fun _ => by simp [encode, decode, decode8]
theorem sneReg (x y : Reg) : Statement (.sneReg x y) := fun _ => by simp [encode, decode, decode9]
theorem drw (x y : Reg) (n : BitVec 4) : Statement (.drw x y n) := fun _ => by simp [encode, decode]
theorem skp (x : Reg) : Statement (.skp x) := fun _ => by simp [encode, decode, decodeE]
theorem sknp (x : Reg) : Statement (.sknp x) := fun _ => by simp [encode, decode, decodeE]
theorem ldVxDt (x : Reg) : Statement (.ldVxDt x) := fun _ => by simp [encode, decode, decodeF]
theorem ldVxK (x : Reg) : Statement (.ldVxK x) := fun _ => by simp [encode, decode, decodeF]
theorem ldDtVx (x : Reg) : Statement (.ldDtVx x) := fun _ => by simp [encode, decode, decodeF]
theorem ldStVx (x : Reg) : Statement (.ldStVx x) := fun _ => by simp [encode, decode, decodeF]
theorem addI (x : Reg) : Statement (.addI x) := fun _ => by simp [encode, decode, decodeF]
theorem ldF (x : Reg) : Statement (.ldF x) := fun _ => by simp [encode, decode, decodeF]
theorem ldB (x : Reg) : Statement (.ldB x) := fun _ => by simp [encode, decode, decodeF]
theorem storeRegs (x : Reg) : Statement (.storeRegs x) := fun _ => by simp [encode, decode, decodeF]
theorem loadRegs (x : Reg) : Statement (.loadRegs x) := fun _ => by simp [encode, decode, decodeF]

theorem row_ne {w : Word} (h : UnmappedWord w) (k : Nat) (hk : k < opcodeTable.length) :
    ¬ opcodeTable[k].Matches w := h _ (List.getElem_mem hk)

theorem decode0_of_unmappedWord {w : Word} (h : UnmappedWord w) : decode0 w = .unmapped w := by
  unfold decode0
  split
  · next e => exact absurd (show w &&& 0xFFFF = 0x00E0 by rw [e]; decide) (row_ne h 0 (by decide))
  · split
    · next e => exact absurd (show w &&& 0xFFFF = 0x00EE by rw [e]; decide) (row_ne h 1 (by decide))
    · rfl

theorem decode8_of_unmappedWord {w : Word} (h : UnmappedWord w) (hf : family w = 8) :
    decode8 w = .unmapped w := by
  unfold decode8
  split
  · exact absurd ((matches_F00F w 8 0).2 ⟨hf, BitVec.eq_of_toNat_eq ‹_›⟩) (row_ne h 9 (by decide))
  · exact absurd ((matches_F00F w 8 1).2 ⟨hf, BitVec.eq_of_toNat_eq ‹_›⟩) (row_ne h 10 (by decide))
  · exact absurd ((matches_F00F w 8 2).2 ⟨hf, BitVec.eq_of_toNat_eq ‹_›⟩) (row_ne h 11 (by decide))
  · exact absurd ((matches_F00F w 8 3).2 ⟨hf, BitVec.eq_of_toNat_eq ‹_›⟩) (row_ne h 12 (by decide))
  · exact absurd ((matches_F00F w 8 4).2 ⟨hf, BitVec.eq_of_toNat_eq ‹_›⟩) (row_ne h 13 (by decide))
  · exact absurd ((matches_F00F w 8 5).2 ⟨hf, BitVec.eq_of_toNat_eq ‹_›⟩) (row_ne h 14 (by decide))
  · exact absurd ((matches_F00F w 8 6).2 ⟨hf, BitVec.eq_of_toNat_eq ‹_›⟩) (row_ne h 15 (by decide))
  · exact absurd ((matches_F00F w 8 7).2 ⟨hf, BitVec.eq_of_toNat_eq ‹_›⟩) (row_ne h 16 (by decide))
  · exact absurd ((matches_F00F w 8 14).2 ⟨hf, BitVec.eq_of_toNat_eq ‹_›⟩) (row_ne h 17 (by decide))
  · rfl

theorem decodeE_of_unmappedWord {w : Word} (h : UnmappedWord w) (hf : family w = 14) :
    decodeE w = .unmapped w := by
  unfold decodeE
  split
  · exact absurd ((matches_F0FF w 14 0x9E).2 ⟨hf, BitVec.eq_of_toNat_eq ‹_›⟩) (row_ne h 23 (by decide))
  · exact absurd ((matches_F0FF w 14 0xA1).2 ⟨hf, BitVec.eq_of_toNat_eq ‹_›⟩) (row_ne h 24 (by decide))
  · rfl

theorem decodeF_of_unmappedWord {w : Word} (h : UnmappedWord w) (hf : family w = 15) :
    decodeF w = .unmapped w := by
  unfold decodeF
  split
  · exact absurd ((matches_F0FF w 15 0x07).2 ⟨hf, BitVec.eq_of_toNat_eq ‹_›⟩) (row_ne h 25 (by decide))
  · exact absurd ((matches_F0FF w 15 0x0A).2 ⟨hf, BitVec.eq_of_toNat_eq ‹_›⟩) (row_ne h 26 (by decide))
  · exact absurd ((matches_F0FF w 15 0x15).2 ⟨hf, BitVec.eq_of_toNat_eq ‹_›⟩) (row_ne h 27 (by decide))
  · exact absurd ((matches_F0FF w 15 0x18).2 ⟨hf, BitVec.eq_of_toNat_eq ‹_›⟩) (row_ne h 28 (by decide))
  · exact absurd ((matches_F0FF w 15 0x1E).2 ⟨hf, BitVec.eq_of_toNat_eq ‹_›⟩) (row_ne h 29 (by decide))
  · exact absurd ((matches_F0FF w 15 0x29).2 ⟨hf, BitVec.eq_of_toNat_eq ‹_›⟩) (row_ne h 30 (by decide))
  · exact absurd ((matches_F0FF w 15 0x33).2 ⟨hf, BitVec.eq_of_toNat_eq ‹_›⟩) (row_ne h 31 (by decide))
  · exact absurd ((matches_F0FF w 15 0x55).2 ⟨hf, BitVec.eq_of_toNat_eq ‹_›⟩) (row_ne h 32 (by decide))
  · exact absurd ((matches_F0FF w 15 0x65).2 ⟨hf, BitVec.eq_of_toNat_eq ‹_›⟩) (row_ne h 33 (by decide))
  · rfl

/-- A word that matches no row decodes to itself as an unmapped word. -/
theorem decode_of_unmappedWord {w : Word} (h : UnmappedWord w) : decode w = .unmapped w := by
  unfold decode
  split
  · exact decode0_of_unmappedWord h
  · exact absurd ((matches_F000 w 1).2 (BitVec.eq_of_toNat_eq ‹_›)) (row_ne h 2 (by decide))
  · exact absurd ((matches_F000 w 2).2 (BitVec.eq_of_toNat_eq ‹_›)) (row_ne h 3 (by decide))
  · exact absurd ((matches_F000 w 3).2 (BitVec.eq_of_toNat_eq ‹_›)) (row_ne h 4 (by decide))
  · exact absurd ((matches_F000 w 4).2 (BitVec.eq_of_toNat_eq ‹_›)) (row_ne h 5 (by decide))
  · unfold decode5
    split
    · exact absurd ((matches_F00F w 5 0).2 ⟨BitVec.eq_of_toNat_eq ‹_›, ‹_›⟩) (row_ne h 6 (by decide))
    · rfl
  · exact absurd ((matches_F000 w 6).2 (BitVec.eq_of_toNat_eq ‹_›)) (row_ne h 7 (by decide))
  · exact absurd ((matches_F000 w 7).2 (BitVec.eq_of_toNat_eq ‹_›)) (row_ne h 8 (by decide))
  · exact decode8_of_unmappedWord h (BitVec.eq_of_toNat_eq ‹_›)
  · unfold decode9
    split
    · exact absurd ((matches_F00F w 9 0).2 ⟨BitVec.eq_of_toNat_eq ‹_›, ‹_›⟩) (row_ne h 18 (by decide))
    · rfl
  · exact absurd ((matches_F000 w 10).2 (BitVec.eq_of_toNat_eq ‹_›)) (row_ne h 19 (by decide))
  · exact absurd ((matches_F000 w 11).2 (BitVec.eq_of_toNat_eq ‹_›)) (row_ne h 20 (by decide))
  · exact absurd ((matches_F000 w 12).2 (BitVec.eq_of_toNat_eq ‹_›)) (row_ne h 21 (by decide))
  · exact absurd ((matches_F000 w 13).2 (BitVec.eq_of_toNat_eq ‹_›)) (row_ne h 22 (by decide))
  · exact decodeE_of_unmappedWord h (BitVec.eq_of_toNat_eq ‹_›)
  · refine decodeF_of_unmappedWord h (BitVec.eq_of_toNat_eq ?_)
    have := (family w).isLt
    generalize (family w).toNat = k at *
    interval_cases k <;> first | rfl | contradiction

theorem unmapped (w : Word) : Statement (.unmapped w) := fun h => decode_of_unmappedWord (of_decide_eq_true h)

end Sys2Proof.Laws.RoundTrip
end

