-- ==== Sys2Proof/Tests/Slice0.lean ====
section
/-! SUPPORT. Tests. Expected results come from 95_test_vectors.md (the vector's number stands beside each test) or from
the encodings of rule R72. The last part holds one witness for every statement that has hypotheses. -/

namespace Sys2Proof.Tests

open Sys2Proof.Machine

/-! ## Helpers -/

/-- The outcome is a next state that the check accepts. -/
def after (o : Host.Outcome State Fault Refusal) (check : State → Bool) : Bool :=
  match o with
  | .next t => check t
  | _ => false

/-- The `Step` call of the vectors: the instruction gate fires and the timer gate does not; key A is down. -/
def call : HostCall := .step { now := 2000000, keys := 0x0400, rnd := 0xA7 }

/-- One step of a word stored at pc. -/
def run (w : Word) (s : State) : Host.Outcome State Fault Refusal :=
  step { (s.writeByte s.pc.toNat (w.extractLsb' 8 8)).writeByte (s.pc.toNat + 1) (w.extractLsb' 0 8) with
    pending := [call] }

/-- The state after reset. -/
def s0 : State := State.reset

/-- The state after reset with registers set. -/
def regs (l : List (Reg × Byte)) : State := l.foldl (fun s p => s.setV p.1 p.2) s0

/-- The state after reset with another configuration. -/
def withCfg (cfg : Config) (s : State) : State := { s with cfg := cfg }

/-- `VF_DEST_ORDER = FlagWins`. -/
def flagWins : Config := { Config.standard with vfDestOrder := .flagWins }

/-- `MEM_OOB_POLICY = Wrap`. -/
def wrapping : Config := { Config.standard with memOobPolicy := .wrap }

/-- `KEY_RANGE_POLICY = LowNibble`. -/
def lowNibble : Config := { Config.standard with keyRangePolicy := .lowNibble }

/-- `TICKS_PER_SECOND = 1000`. -/
def millis : Config := { Config.standard with ticksPerSecond := 1000 }

/-- `V[k] = k + 1` (vectors M10, M11). -/
def counting : State :=
  regs [(0, 1), (1, 2), (2, 3), (3, 4), (4, 5), (5, 6), (6, 7), (7, 8), (8, 9), (9, 10), (10, 11), (11, 12),
    (12, 13), (13, 14), (14, 15), (15, 16)]

/-! ## Decoding: every row of rule R72, from the bits of its encoding -/

theorem test_decode_family0 : decode 0b0000_0000_1110_0000 = .cls ∧ decode 0b0000_0000_1110_1110 = .ret := by decide
theorem test_decode_jp : decode 0b0001_1010_0011_1100 = .jp 0xA3C := by decide
theorem test_decode_call : decode 0b0010_1010_0011_1100 = .call 0xA3C := by decide
theorem test_decode_seImm : decode 0b0011_0111_0010_1010 = .seImm 7 0x2A := by decide
theorem test_decode_sneImm : decode 0b0100_0111_0010_1010 = .sneImm 7 0x2A := by decide
theorem test_decode_seReg : decode 0b0101_0001_1110_0000 = .seReg 1 14 := by decide
theorem test_decode_ldImm : decode 0b0110_0111_0010_1010 = .ldImm 7 0x2A := by decide
theorem test_decode_addImm : decode 0b0111_0111_0010_1010 = .addImm 7 0x2A := by decide
theorem test_decode_family8_logic :
    decode 0b1000_0001_1110_0000 = .ldReg 1 14 ∧ decode 0b1000_0001_1110_0001 = .orReg 1 14 ∧
    decode 0b1000_0001_1110_0010 = .andReg 1 14 ∧ decode 0b1000_0001_1110_0011 = .xorReg 1 14 := by decide
theorem test_decode_family8_arithmetic :
    decode 0b1000_0001_1110_0100 = .addReg 1 14 ∧ decode 0b1000_0001_1110_0101 = .sub 1 14 ∧
    decode 0b1000_0001_1110_0110 = .shr 1 14 ∧ decode 0b1000_0001_1110_0111 = .subn 1 14 ∧
    decode 0b1000_0001_1110_1110 = .shl 1 14 := by decide
theorem test_decode_sneReg : decode 0b1001_0001_1110_0000 = .sneReg 1 14 := by decide
theorem test_decode_ldI : decode 0b1010_1010_0011_1100 = .ldI 0xA3C := by decide
theorem test_decode_jpV0 : decode 0b1011_1010_0011_1100 = .jpV0 0xA3C := by decide
theorem test_decode_rnd : decode 0b1100_0111_0010_1010 = .rnd 7 0x2A := by decide
theorem test_decode_drw : decode 0b1101_0001_1110_0101 = .drw 1 14 5 := by decide
theorem test_decode_familyE :
    decode 0b1110_0101_1001_1110 = .skp 5 ∧ decode 0b1110_0101_1010_0001 = .sknp 5 := by decide
theorem test_decode_familyF_timers :
    decode 0b1111_0101_0000_0111 = .ldVxDt 5 ∧ decode 0b1111_0101_0000_1010 = .ldVxK 5 ∧
    decode 0b1111_0101_0001_0101 = .ldDtVx 5 ∧ decode 0b1111_0101_0001_1000 = .ldStVx 5 := by decide
theorem test_decode_familyF_memory :
    decode 0b1111_0101_0001_1110 = .addI 5 ∧ decode 0b1111_0101_0010_1001 = .ldF 5 ∧
    decode 0b1111_0101_0011_0011 = .ldB 5 ∧ decode 0b1111_0101_0101_0101 = .storeRegs 5 ∧
    decode 0b1111_0101_0110_0101 = .loadRegs 5 := by decide
/-- R75, R77: vectors F5 to F10. -/
theorem test_decode_unmapped :
    decode 0x0000 = .unmapped 0x0000 ∧ decode 0x5121 = .unmapped 0x5121 ∧ decode 0x8008 = .unmapped 0x8008 ∧
    decode 0x9121 = .unmapped 0x9121 ∧ decode 0xE000 = .unmapped 0xE000 ∧ decode 0xF0FF = .unmapped 0xF0FF := by
  decide
/-- R55, R70: big-endian, and a missing byte is refused by name. -/
theorem test_decode_bytes :
    decodeBytes [0x12, 0x34, 0xFF] = .ok (.jp 0x234, [0xFF]) ∧ decodeBytes [0x12] = .error .truncated := ⟨rfl, rfl⟩
theorem test_encode_bytes : encodeBytes (.drw 1 14 5) = [0xD1, 0xE5] := by decide
theorem test_decode_table_word : decodeTableWord 16 0xD1E5 = some (.drw 1 14 5) := by decide

/-! ## Well-formedness -/

/-- 0x1234 is a jump's word: as an unmapped word it is refused. -/
theorem test_wf_refuses_mapped_word : ¬ (Instr.unmapped 0x1234).WF := by decide
theorem test_wf_accepts_unmapped_word : (Instr.unmapped 0x5121).WF := by decide

/-! ## Fetch, placing a word, and the unmapped space -/

/-- A placed word is the first instruction after reset (R151, A1). -/
theorem test_withFetchWord : after (step (State.reset.withFetchWord 16 0x6A42)) (fun t => t.getV 10 == 0x42) = true := by
  decide
/-- F2. -/
theorem test_fetch_at_last_byte :
    after (step { s0 with pc := 0xFFF, pending := [call] })
      (fun t => t.run == .halted .programOutOfBounds && t.faultAddress == some 0xFFF) = true := by decide
/-- F1. -/
theorem test_unmapped_at_last_word : after (run 0x0000 { s0 with pc := 0xFFE }) (fun t => t.pc == 0x1000) = true := by
  decide
/-- F4: an odd pc. -/
theorem test_odd_pc : after (run 0x6042 { s0 with pc := 0x201 }) (fun t => t.pc == 0x203) = true := by decide

/-! ## Gates, timers and tone -/

/-- T2: the instruction gate is strict. -/
theorem test_instruction_gate :
    after (step { s0 with pending := [.step { now := 1428571, keys := 0, rnd := 0 }] }) (fun t => t.pc == 0x200) = true ∧
    after (step { s0 with pending := [.step { now := 1428572, keys := 0, rnd := 0 }] }) (fun t => t.pc == 0x202) = true := by
  decide
/-- T3: the timer gate is strict. -/
theorem test_timer_gate :
    (timerPhase { now := 1, keys := 0, rnd := 0 } (withCfg { millis with ticksPerSecond := 60 } s0)).tTimer = 0 ∧
    (timerPhase { now := 2, keys := 0, rnd := 0 } (withCfg { millis with ticksPerSecond := 60 } s0)).tTimer = 2 := by
  decide
/-- T4: a clock that goes back ticks nothing. -/
theorem test_clock_goes_back :
    (timerPhase { now := 10, keys := 0, rnd := 0 } { withCfg millis s0 with tTimer := 17, dt := 3 }).dt = 3 := by decide
/-- T5: the tone of a tick that leaves ST at 1, and of one that leaves it at 0. -/
theorem test_tone :
    (timerPhase { now := 17, keys := 0, rnd := 0 } { withCfg millis s0 with st := 2 }).tone = true ∧
    (timerPhase { now := 17, keys := 0, rnd := 0 } { withCfg millis s0 with st := 1 }).tone = false := by decide

/-! ## Control flow -/

/-- C1. -/
theorem test_ret_underflow :
    after (run 0x00EE s0) (fun t => t.run == .halted .stackUnderflow && t.pc == 0x202) = true := by decide
/-- C2. -/
theorem test_ret :
    after (run 0x00EE { s0 with sp := 2, stack := [0, 0x202, 0x30A] }) (fun t => t.pc == 0x30A && t.sp == 1) = true := by
  decide
/-- C3. -/
theorem test_jp : after (run 0x1FFF s0) (fun t => t.pc == 0xFFF) = true := by decide
/-- C6. -/
theorem test_call :
    after (run 0x2400 { s0 with sp := 14 }) (fun t => t.sp == 15 && t.stack.getD 15 0 == 0x202 && t.pc == 0x400) = true := by
  decide
/-- C7. -/
theorem test_call_overflow :
    after (run 0x2400 { s0 with sp := 15 }) (fun t => t.run == .halted .stackOverflow && t.pc == 0x202) = true := by
  decide
/-- C10, C11. -/
theorem test_seImm :
    after (run 0x332A (regs [(3, 0x2A)])) (fun t => t.pc == 0x204) = true ∧
    after (run 0x332A (regs [(3, 0x2B)])) (fun t => t.pc == 0x202) = true := by decide
/-- C13, C14. -/
theorem test_sneImm :
    after (run 0x432A (regs [(3, 0x2B)])) (fun t => t.pc == 0x204) = true ∧
    after (run 0x432A (regs [(3, 0x2A)])) (fun t => t.pc == 0x202) = true := by decide
/-- C15, C16. -/
theorem test_seReg :
    after (run 0x5110 (regs [(1, 7)])) (fun t => t.pc == 0x204) = true ∧
    after (run 0x5120 (regs [(1, 7), (2, 8)])) (fun t => t.pc == 0x202) = true := by decide
/-- C17, C18. -/
theorem test_sneReg :
    after (run 0x9110 (regs [(1, 7)])) (fun t => t.pc == 0x202) = true ∧
    after (run 0x9120 (regs [(1, 7), (2, 8)])) (fun t => t.pc == 0x204) = true := by decide
/-- C20, C21. -/
theorem test_jpV0 :
    after (run 0xBFFF (regs [(0, 0xFF)])) (fun t => t.pc == 0x10FE) = true ∧
    after (run 0xB300 (regs [(0, 1), (3, 0x50)])) (fun t => t.pc == 0x301) = true := by decide

/-! ## Registers, arithmetic and logic -/

/-- A1. -/
theorem test_ldImm : after (run 0x6A42 s0) (fun t => t.getV 10 == 0x42) = true := by decide
/-- A2, A3. -/
theorem test_addImm :
    after (run 0x70FF (regs [(0, 1)])) (fun t => t.getV 0 == 0 && t.getV vf == 0) = true ∧
    after (run 0x7F01 (regs [(15, 0xFF)])) (fun t => t.getV vf == 0) = true := by decide
/-- A4. -/
theorem test_ldReg : after (run 0x8010 (regs [(1, 0x33)])) (fun t => t.getV 0 == 0x33) = true := by decide
/-- A5. -/
theorem test_orReg :
    after (run 0x8011 (regs [(0, 0x0F), (1, 0xF0), (15, 5)])) (fun t => t.getV 0 == 0xFF && t.getV vf == 5) = true := by
  decide
/-- A6. -/
theorem test_andReg : after (run 0x8012 (regs [(0, 0x3C), (1, 0x0F)])) (fun t => t.getV 0 == 0x0C) = true := by decide
/-- R156's example, A7. -/
theorem test_xorReg :
    after (run 0x8013 (regs [(0, 0xFF), (1, 0x0F)])) (fun t => t.getV 0 == 0xF0) = true ∧
    after (run 0x8333 (regs [(3, 0x5A)])) (fun t => t.getV 3 == 0) = true := by decide
/-- E1, and A11 under both orders. -/
theorem test_addReg :
    after (run 0x8014 (regs [(0, 200), (1, 100)])) (fun t => t.getV 0 == 44 && t.getV vf == 1) = true := by decide
theorem test_addReg_into_vf :
    after (run 0x8F14 (regs [(15, 200), (1, 100)])) (fun t => t.getV vf == 44) = true ∧
    after (run 0x8F14 (withCfg flagWins (regs [(15, 200), (1, 100)]))) (fun t => t.getV vf == 1) = true := by decide
/-- A12: equal operands give 0. -/
theorem test_sub_equal :
    after (run 0x8015 (regs [(0, 7), (1, 7)])) (fun t => t.getV 0 == 0 && t.getV vf == 0) = true := by decide
/-- A15: the flag's register as a source. -/
theorem test_sub_from_vf :
    after (run 0x80F5 (regs [(0, 9), (15, 4)])) (fun t => t.getV 0 == 5 && t.getV vf == 1) = true := by decide
/-- A17, A19. -/
theorem test_shr :
    after (run 0x8016 (regs [(0, 1), (1, 0xFF)])) (fun t => t.getV 0 == 0 && t.getV vf == 1) = true ∧
    after (run 0x8206 (regs [(2, 5)])) (fun t => t.getV 2 == 2 && t.getV vf == 1) = true := by decide
/-- A21, A22. -/
theorem test_subn :
    after (run 0x8017 (regs [(0, 1)])) (fun t => t.getV 0 == 255 && t.getV vf == 0) = true ∧
    after (run 0x8017 (regs [(1, 255)])) (fun t => t.getV 0 == 255 && t.getV vf == 1) = true := by decide
/-- A26. -/
theorem test_shl :
    after (run 0x800E (regs [(0, 0x7F)])) (fun t => t.getV 0 == 0xFE && t.getV vf == 0) = true := by decide
/-- A27 under both orders. -/
theorem test_shl_into_vf :
    after (run 0x8F0E (regs [(15, 0x81)])) (fun t => t.getV vf == 2) = true ∧
    after (run 0x8F0E (withCfg flagWins (regs [(15, 0x81)]))) (fun t => t.getV vf == 1) = true := by decide
/-- A30. -/
theorem test_rnd : after (run 0xC30F s0) (fun t => t.getV 3 == 0x07) = true := by decide

/-! ## Index register and memory transfer -/

/-- M1. -/
theorem test_ldI : after (run 0xAFFF s0) (fun t => t.i == 0x0FFF) = true := by decide
/-- M2. -/
theorem test_addI :
    after (run 0xF01E { regs [(0, 1)] with i := 0xFFFF }) (fun t => t.i == 0 && t.getV vf == 0) = true := by decide
/-- M5: not masked. -/
theorem test_ldF : after (run 0xF029 (regs [(0, 0xFF)])) (fun t => t.i == 0x04FB) = true := by decide
/-- M7. -/
theorem test_ldB :
    after (run 0xF033 { regs [(0, 199)] with i := 0xFFD })
      (fun t => [t.readByte 0xFFD, t.readByte 0xFFE, t.readByte 0xFFF] == [1, 9, 9]) = true := by decide
/-- M8, M9: both policies. -/
theorem test_ldB_past_the_end :
    after (run 0xF033 { regs [(0, 199)] with i := 0xFFE })
      (fun t => t.run == .halted .memoryOutOfBounds && t.readByte 0xFFE == 0) = true ∧
    after (run 0xF033 { withCfg wrapping (regs [(0, 199)]) with i := 0xFFE })
      (fun t => [t.readByte 0xFFE, t.readByte 0xFFF, t.readByte 0] == [1, 9, 9]) = true := by decide
/-- M10. -/
theorem test_storeRegs :
    after (run 0xFF55 { counting with i := 0xFF0 })
      (fun t => t.readByte 0xFF0 == 1 && t.readByte 0xFFF == 16 && t.i == 0xFF0) = true := by decide
/-- M11. -/
theorem test_storeRegs_past_the_end :
    after (run 0xFF55 { counting with i := 0xFF1 })
      (fun t => t.run == .halted .memoryOutOfBounds && t.readByte 0xFF1 == 0) = true := by decide
/-- M14: the font. -/
theorem test_loadRegs :
    after (run 0xFF65 s0) (fun t => [t.getV 0, t.getV 5, t.getV 13, t.getV 15] == [0xF0, 0x20, 0x80, 0xF0]) = true := by
  decide
/-- M15. -/
theorem test_loadRegs_past_the_end :
    after (run 0xF065 { regs [(0, 3)] with i := 0x1000 })
      (fun t => t.run == .halted .memoryOutOfBounds && t.getV 0 == 3) = true := by decide

/-! ## Display -/

/-- D1. -/
theorem test_cls :
    after (run 0x00E0 { s0 with fb := [5] }) (fun t => t.fb == [] && t.stepResult == some ⟨true, false, false⟩) = true := by
  decide
/-- D2: clipped at the right and at the bottom. -/
theorem test_drw_clipped :
    after (run 0xD015 { regs [(0, 62), (1, 30)] with i := 0x032 })
      (fun t => t.fb == [30 * 64 + 62, 30 * 64 + 63, 31 * 64 + 62] && t.getV vf == 0) = true := by decide
/-- D7: x = y = F, and a collision. -/
theorem test_drw_collision :
    after (run 0xDFF1 { (regs [(15, 3)]).writeByte 0x300 0xC0 with i := 0x300, fb := [3 * 64 + 3] })
      (fun t => t.fb == [3 * 64 + 4] && t.getV vf == 1) = true := by decide

/-! ## Keys and timer registers -/

/-- K1, K5. -/
theorem test_skp :
    after (run 0xE59E (regs [(5, 0x0A)])) (fun t => t.pc == 0x204) = true ∧
    after (run 0xE59E (regs [(5, 0x1A)])) (fun t => t.pc == 0x202) = true := by decide
/-- K7: the other policy. -/
theorem test_skp_low_nibble :
    after (run 0xE59E (withCfg lowNibble (regs [(5, 0x1A)]))) (fun t => t.pc == 0x204) = true := by decide
/-- K4, K6. -/
theorem test_sknp :
    after (run 0xE5A1 (regs [(5, 0x0A)])) (fun t => t.pc == 0x202) = true ∧
    after (run 0xE5A1 (regs [(5, 0x1A)])) (fun t => t.pc == 0x204) = true := by decide
/-- K9: both gates fire, and the timers tick first. -/
theorem test_ldVxDt :
    after (step (({ withCfg millis s0 with dt := 0x10, pending := [.step { now := 17, keys := 0, rnd := 0 }] }
      : State).writeByte 0x200 0xF3 |>.writeByte 0x201 0x07)) (fun t => t.getV 3 == 0x0F && t.dt == 0x0F) = true := by
  decide
/-- K10, K11 without the tick. -/
theorem test_ldDtVx : after (run 0xF315 (regs [(3, 5)])) (fun t => t.dt == 5) = true := by decide
theorem test_ldStVx : after (run 0xF318 (regs [(3, 2)])) (fun t => t.st == 2 && !t.tone) = true := by decide
/-- K12. -/
theorem test_ldVxK : after (run 0xF20A s0) (fun t => t.run == .awaitKey 2 && t.pc == 0x202) = true := by decide
/-- K13. -/
theorem test_key_press :
    after (step { s0 with run := .awaitKey 15, pending := [.keyEvent (.pressed 12)] })
      (fun t => t.getV vf == 0x0C && t.run == .running) = true := by decide
/-- T7. -/
theorem test_key_cancelled :
    after (step { s0 with run := .awaitKey 2, pending := [.keyEvent .cancelled] })
      (fun t => t.run == .halted .keyWaitCancelled && t.getV 2 == 0) = true := by decide

/-! ## Construction -/

/-- I1. -/
theorem test_construct :
    after (construct Config.standard [0x12, 0x34] 5)
      (fun t => [t.readByte 0, t.readByte 1, t.readByte 0x200, t.readByte 0x201, t.readByte 0x202] ==
        [0xF0, 0x90, 0x12, 0x34, 0] && t.tTimer == 5 && t.tInstr == 5) = true := by decide

/-! ## Witnesses: concrete states and operands that meet a statement's hypotheses, each clause at a boundary -/

/-- The call of the vectors as inputs. -/
def callInput : StepInput := { now := 2000000, keys := 0x0400, rnd := 0xA7 }

/-- A state whose next step is the vectors' call. -/
def called : State := { s0 with pending := [call] }

/-- Milliseconds as the unit of time, timers at 1 and 0. -/
def timed : State := { withCfg millis s0 with dt := 1 }

/-- Inputs at a time. -/
def inputAt (now : Nat) : StepInput := { now := now, keys := 0, rnd := 0 }

/-- Two calls a sixtieth of a second apart at most, the second running F3nn with nn the given byte. -/
def twice (nn : Byte) : State :=
  { ((timed.setV 3 9).writeByte 0x202 0xF3).writeByte 0x203 nn with
    pending := [.step (inputAt 17), .step (inputAt 33)] }

theorem s0_mem_wf (i : Word) : ({ s0 with i := i } : State).mem.wf ({ s0 with i := i } : State).cfg.font :=
  Memory.wf_nil _

theorem s0_fb_wf (s : State) (h : s.fb = []) : Framebuffer.wf (s.cfg.fbW * s.cfg.fbH) s.fb := by
  rw [h]; exact Framebuffer.wf_nil _

theorem called_inv : called.Inv := by
  refine ⟨by decide, Memory.wf_nil _, Framebuffer.wf_nil _, rfl, by decide, fun w hw => ?_, ?_⟩
  · rw [(List.mem_replicate.1 hw).2]; exact Nat.zero_le _
  · show (0x200 : Word).toNat ≤ 0x10FE
    simp

theorem witness_DecodeOfEncodeIsIdentity : (Instr.drw 15 15 15).WF ∧ (Instr.unmapped 0xFFFF).WF := by decide
theorem witness_DecodeSelectsTheUniqueTableRow :
    (∃ r ∈ opcodeTable, r.Matches 0x800E) ∧ (∀ r ∈ opcodeTable, ¬ r.Matches 0x800F) ∧
    opcodeTable[17].Matches 0x800E := by decide
theorem witness_StepRunsTheDecodedInstruction :
    { called with pc := 0xFFE }.run = .running ∧ called.pending = .step callInput :: [] ∧
    ({ called with pc := 0xFFE } : State).pc.toNat + 1 < 4096 ∧
    decode (called.readByte 0xFFE ++ called.readByte 0xFFF) = .unmapped 0 ∧
    called.cfg.ticksPerSecond < (callInput.now - called.tInstr) * called.cfg.ips ∧
    s0.run = .running ∧ s0.pending = [] := by decide
theorem witness_StepWithoutInstructionTick :
    ({ s0 with pending := [.step (inputAt 1428571)] } : State).run = .running ∧
    ((inputAt 1428571).now - s0.tInstr) * s0.cfg.ips ≤ s0.cfg.ticksPerSecond := by decide
theorem witness_TimerTickDecrementsBothTimersOnce :
    timed.cfg.ticksPerSecond < ((inputAt 17).now - timed.tTimer) * 60 ∧ timed.dt ≠ 0 ∧ timed.st = 0 ∧
    ({ timed with dt := 0, st := 1 } : State).dt = 0 ∧ ({ timed with dt := 0, st := 1 } : State).st ≠ 0 := by decide
theorem witness_TimerPhaseChangesOnlyTimersAndFlags :
    timed.cfg.ticksPerSecond < ((inputAt 17).now - timed.tTimer) * 60 ∧
    ((inputAt 16).now - timed.tTimer) * 60 ≤ timed.cfg.ticksPerSecond ∧
    (inputAt 0).now ≤ timed.tTimer := by decide
theorem witness_NoSecondTimerTickWithinAPeriod :
    timed.run = .running ∧ timed.cfg.ticksPerSecond < ((inputAt 17).now - timed.tTimer) * 60 ∧
    ((inputAt 33).now - (inputAt 17).now) * 60 ≤ timed.cfg.ticksPerSecond ∧
    after (step { timed with pending := [.step (inputAt 17), .step (inputAt 33)] })
      (fun t => t.run == .running && after (step t) (fun _ => true)) = true ∧
    after (step (twice 0x15))
      (fun t => t.run == .running && after (step t) (fun u => u.dt != t.dt)) = true ∧
    after (step (twice 0x18))
      (fun t => t.run == .running && after (step t) (fun u => u.st != t.st)) = true := by decide
theorem witness_FetchOutOfBoundsHalts :
    ({ called with pc := 0xFFF } : State).run = .running ∧ called.pending = .step callInput :: [] ∧
    called.cfg.ticksPerSecond < (callInput.now - called.tInstr) * called.cfg.ips ∧
    4096 ≤ ({ called with pc := 0xFFF } : State).pc.toNat + 1 := by decide
theorem witness_HaltedMachineHasNoTransition :
    ({ s0 with run := .halted .stackOverflow } : State).run = .halted .stackOverflow := rfl
theorem witness_StepFlagsDescribeOnlyThatStep :
    called.run = .running ∧ called.pending = .step callInput :: [] ∧
    after (step (called.writeByte 0x201 0xE0)) (fun t => t.clearReq) = true ∧
    after (step ((called.writeByte 0x200 0xD0).writeByte 0x201 0x01)) (fun t => t.redrawReq) = true := by decide
theorem witness_KeyPressCompletesTheWait :
    ({ s0 with run := .awaitKey 15 } : State).run = .awaitKey 15 ∧
    ({ s0 with pending := [.keyEvent (.pressed 15)] } : State).pending = .keyEvent (.pressed 15) :: [] ∧ 15 < 16 := by
  decide
theorem witness_CancelledKeyWaitHalts :
    ({ s0 with run := .awaitKey 2, pending := [.keyEvent .cancelled] } : State).run = .awaitKey 2 ∧
    ({ s0 with run := .awaitKey 2, pending := [.keyEvent .cancelled] } : State).pending = .keyEvent .cancelled :: [] := by
  decide
theorem witness_FreeKeyAnswerIsAKeyOrACancellation :
    ({ s0 with run := .awaitKey 2 } : State).run = .awaitKey 2 ∧ ({ s0 with run := .awaitKey 2 } : State).pending = [] := by
  decide
theorem witness_TimersAndFrameFreezeDuringKeyWait :
    ({ s0 with run := .awaitKey 2 } : State).run = .awaitKey 2 ∧
    after (step { s0 with run := .awaitKey 2, pending := [.keyEvent (.pressed 0)] }) (fun _ => true) = true := by decide
theorem witness_CallsThatAreNotEnabledHaveNoMove :
    (({ s0 with run := .awaitKey 2, pending := [call] } : State).run = .awaitKey 2 ∧
      ({ s0 with run := .awaitKey 2, pending := [call] } : State).pending = .step callInput :: []) ∧
    (s0.run = .running ∧ ({ s0 with pending := [.keyEvent .cancelled] } : State).pending = .keyEvent .cancelled :: []) ∧
    (({ s0 with run := .awaitKey 2, pending := [.keyEvent (.pressed 16)] } : State).pending =
      .keyEvent (.pressed 16) :: [] ∧ 16 ≤ 16) := by decide
theorem witness_ReturnPopsTheReturnAddress :
    ({ s0 with sp := 15 } : State).sp < ({ s0 with sp := 15 } : State).stack.length ∧ 0 < ({ s0 with sp := 15 } : State).sp ∧
    ({ s0 with sp := 1 } : State).sp < s0.stack.length ∧ 0 < ({ s0 with sp := 1 } : State).sp ∧ s0.sp = 0 := by decide
theorem witness_CallPushesTheReturnAddress :
    s0.stack.length = s0.cfg.stackSize ∧ ({ s0 with sp := 14 } : State).sp + 1 < s0.cfg.stackSize ∧
    ({ s0 with sp := 15 } : State).sp + 1 = s0.cfg.stackSize := by decide
theorem witness_ReturnUndoesCall :
    s0.stack.length = s0.cfg.stackSize ∧ ({ s0 with sp := 14 } : State).sp + 1 < s0.cfg.stackSize ∧
    ∃ t u : State, exec (.call 0x300) { s0 with sp := 14 } = .next t ∧ u.stack = t.stack ∧ u.sp = t.sp ∧ u.pc = 0x302 :=
  ⟨rfl, by decide, { s0 with sp := 15, stack := s0.stack.set 15 0x200, pc := 0x300 },
    { s0 with sp := 15, stack := s0.stack.set 15 0x200, pc := 0x302 }, rfl, rfl, rfl, rfl⟩
theorem witness_SkipsOnKeyState :
    (((regs [(5, 15)]).getV 5).toNat ≤ 15 ∧ false = (regs [(5, 15)]).input.keys.getLsbD 15) ∧
    (15 < ((regs [(5, 16)]).getV 5).toNat ∧ (regs [(5, 16)]).cfg.keyRangePolicy = .notDown) ∧
    (15 < ((regs [(5, 16)]).getV 5).toNat ∧ (withCfg lowNibble (regs [(5, 16)])).cfg.keyRangePolicy = .lowNibble ∧
      false = (regs [(5, 16)]).input.keys.getLsbD (((regs [(5, 16)]).getV 5).toNat % 16)) := by decide
theorem witness_AddSetsCarry : (14 : Reg) ≠ vf := by decide
theorem witness_SubtractionsSetStrictGreaterFlag : (0 : Reg) ≠ vf := by decide
theorem witness_ShiftsSetTheBitShiftedOut : (14 : Reg) ≠ vf := by decide
theorem witness_AddSubtractShiftIntoVF :
    200 = ((regs [(15, 200), (1, 100)]).getV vf).toNat ∧ 100 = ((regs [(15, 200), (1, 100)]).getV 1).toNat ∧
    (Instr.addReg vf 1, 44, 1) ∈ [(Instr.addReg vf 1, (200 + 100) % 256, if 255 < 200 + 100 then 1 else 0)] ∧
    (regs [(15, 200), (1, 100)]).cfg.vfDestOrder = .resultWins ∧
    (withCfg flagWins (regs [(15, 200), (1, 100)])).cfg.vfDestOrder = .flagWins := by decide
theorem witness_BcdDigitsAreStored :
    ({ s0 with i := 0xFFD } : State).mem.wf s0.cfg.font ∧ ({ s0 with i := 0xFFD } : State).i.toNat + 2 < 4096 :=
  ⟨s0_mem_wf _, by decide⟩
theorem witness_RegistersAreStored :
    ({ s0 with i := 0xFF0 } : State).mem.wf s0.cfg.font ∧
    ({ s0 with i := 0xFF0 } : State).i.toNat + (15 : Reg).val < 4096 := ⟨s0_mem_wf _, by decide⟩
theorem witness_RegistersAreLoaded : ({ s0 with i := 0xFF0 } : State).i.toNat + (15 : Reg).val < 4096 := by decide
theorem witness_WrapPolicyReachesModulo4096 :
    (withCfg wrapping { s0 with i := 0xFFF }).mem.wf (withCfg wrapping { s0 with i := 0xFFF }).cfg.font ∧
    (withCfg wrapping { s0 with i := 0xFFF }).cfg.memOobPolicy = .wrap := ⟨Memory.wf_nil _, rfl⟩
theorem witness_OutOfRangeAccessHalts :
    s0.cfg.memOobPolicy = .fatal ∧ 4096 ≤ ({ s0 with i := 0xFFE } : State).i.toNat + 2 ∧
    4096 ≤ ({ s0 with i := 0xFF1 } : State).i.toNat + (15 : Reg).val ∧
    1 < (2 : BitVec 4).toNat ∧ ((regs [(1, 30)]).getV 1).toNat % s0.cfg.fbH + 1 < s0.cfg.fbH ∧
    4096 ≤ ({ s0 with i := 0xFFF } : State).i.toNat + 1 := by decide
theorem witness_LoadAfterStoreRestoresRegisters :
    ({ s0 with i := 0xFF0 } : State).mem.wf s0.cfg.font ∧
    (({ s0 with i := 0xFF0 } : State).i.toNat + (15 : Reg).val < 4096 ∨ s0.cfg.memOobPolicy = .wrap) ∧
    (({ s0 with i := 0xFF1 } : State).i.toNat + (15 : Reg).val < 4096 ∨
      (withCfg wrapping { s0 with i := 0xFF1 }).cfg.memOobPolicy = .wrap) ∧
    ∃ t u : State, exec (.storeRegs 0) s0 = .next t ∧ u.mem = t.mem ∧ u.i = t.i ∧ u.cfg = t.cfg ∧ u.getV 0 = 9 :=
  ⟨s0_mem_wf _, by decide, by decide, s0.storeBytes 0 [0], (s0.storeBytes 0 [0]).setV 0 9, rfl, rfl, rfl, rfl, rfl⟩
/-- Vector F12: V0 = 0x12 and V1 = 0x55, stored at 0x200 and run there. -/
theorem witness_StoredCodeRunsAtTheNextFetch :
    let s : State := { regs [(0, 0x12), (1, 0x55)] with i := 0x200 }
    let t : State := s.storeBytes 0x200 [0x12, 0x55]
    let u : State := { t with pending := [.step callInput] }
    s.mem.wf s.cfg.font ∧ s.i.toNat + (1 : Reg).val < 4096 ∧ (1 : Reg).val = (0 : Reg).val + 1 ∧ (1 : Reg) ≤ 1 ∧
    exec (.storeRegs 1) s = .next t ∧ u.mem = t.mem ∧ u.cfg = t.cfg ∧ u.pc.toNat = s.i.toNat + (0 : Reg).val ∧
    u.run = .running ∧ u.pending = .step callInput :: [] ∧
    u.cfg.ticksPerSecond < (callInput.now - u.tInstr) * u.cfg.ips := by
  refine ⟨Memory.wf_nil _, by decide, rfl, by decide, rfl, rfl, rfl, rfl, rfl, rfl, ?_⟩
  show 1000000000 < (2000000 - 0) * 700
  decide

/-- Vector D5: a sprite whose rows below the screen lie past the end of memory; and a sprite under `Wrap`. -/
def corner : State := { regs [(1, 31)] with i := 0xFFF }

theorem corner_readable : spriteReadable corner 1 15 := .inr (by decide)
theorem witness_DrawTogglesExactlyTheSpriteBits :
    0 < corner.cfg.fbW ∧ 0 < corner.cfg.fbH ∧ Framebuffer.wf (corner.cfg.fbW * corner.cfg.fbH) corner.fb ∧
    spriteReadable corner 1 15 ∧ spriteReadable (withCfg wrapping { s0 with i := 0xFFFF }) 0 15 :=
  ⟨by decide, by decide, s0_fb_wf _ rfl, corner_readable, .inl rfl⟩
theorem witness_CollisionFlagMeansALitCellWentOut :
    0 < corner.cfg.fbW ∧ 0 < corner.cfg.fbH ∧ Framebuffer.wf (corner.cfg.fbW * corner.cfg.fbH) corner.fb ∧
    spriteReadable corner 1 15 ∧ after (exec (.drw 0 1 15) corner) (fun _ => true) = true :=
  ⟨by decide, by decide, s0_fb_wf _ rfl, corner_readable, by decide⟩
theorem witness_DrawingTwiceRestoresTheFrame :
    0 < corner.cfg.fbW ∧ 0 < corner.cfg.fbH ∧ Framebuffer.wf (corner.cfg.fbW * corner.cfg.fbH) corner.fb ∧
    spriteReadable corner 1 15 ∧
    after (exec (.drw 0 1 15) corner) (fun t => t.getV 0 == corner.getV 0 && t.getV 1 == corner.getV 1) = true :=
  ⟨by decide, by decide, s0_fb_wf _ rfl, corner_readable, by decide⟩
theorem witness_UnmappedWordsAreNoOps :
    (∀ r ∈ opcodeTable, ¬ r.Matches (called.readByte called.pc.toNat ++ called.readByte (called.pc.toNat + 1))) ∧
    called.run = .running ∧ called.pending = .step callInput :: [] ∧ called.pc.toNat + 1 < 4096 ∧
    called.cfg.ticksPerSecond < (callInput.now - called.tInstr) * called.cfg.ips := by decide
theorem witness_EveryInstructionCompletesWithItsOneCause :
    s0.run = .running ∧ after (exec .ret s0) (fun t => t.run == .halted .stackUnderflow) = true := by decide
theorem witness_FatalConditionsArePrecise :
    s0.run = .running ∧
    after (exec (.call 0) { s0 with sp := 15 }) (fun t => t.run == .halted .stackOverflow) = true := by decide
theorem witness_StateIsWrittenOnlyByItsInstructions :
    after (exec .cls { s0 with fb := [5] }) (fun t => t.fb != [5]) = true ∧
    after (exec (.ldDtVx 1) (regs [(1, 7)])) (fun t => t.dt != 0) = true ∧
    after (exec (.ldImm 15 1) s0) (fun t => t.v != s0.v) = true ∧
    after (exec (.ldVxK 15) s0) (fun t => t.run != s0.run) = true ∧
    after (exec (.loadRegs 0) { s0 with i := 0x1000 }) (fun t => t.run != s0.run) = true := by decide
theorem witness_RegistersAreWrittenOnlyAsTheTableSays :
    after (exec (.addReg 0 1) s0) (fun _ => true) = true ∧ (14 : Reg) ∉ writtenRegs (.addReg 0 1) := by decide
theorem witness_HostInputsReachOnlyTheirInstructions :
    after (exec (.skp 5) s0) (fun _ => true) = true ∧ (∀ (x : Reg) (nn : Byte), Instr.skp 5 ≠ .rnd x nn) ∧
    after (exec (.rnd 0 1) s0) (fun _ => true) = true ∧
    (∀ x : Reg, Instr.rnd 0 1 ≠ .skp x ∧ Instr.rnd 0 1 ≠ .sknp x) :=
  ⟨by decide, by simp, by decide, by simp⟩
theorem witness_StepKeepsInvariant : called.Inv ∧ after (step called) (fun _ => true) = true := ⟨called_inv, by decide⟩
theorem witness_ConfigurationIsFixedForARun : after (step called) (fun _ => true) = true := by decide
theorem witness_ConstructionZeroesRegistersFrameAndMemory :
    0x200 + (List.replicate 3584 (0xAB : Byte)).length ≤ 4096 ∧ 0x200 + ([] : List Byte).length ≤ 4096 := by
  have := List.length_replicate (n := 3584) (a := (0xAB : Byte))
  exact ⟨by omega, by decide⟩
theorem witness_RomSizeIsChecked :
    4096 < 0x200 + (List.replicate 3585 (0xAB : Byte)).length ∧
    0x200 + (List.replicate 3584 (0xAB : Byte)).length ≤ 4096 := by
  have := List.length_replicate (n := 3584) (a := (0xAB : Byte))
  have := List.length_replicate (n := 3585) (a := (0xAB : Byte))
  exact ⟨by omega, by omega⟩
theorem witness_ConstructionLoadsRomAndFont :
    0x200 + ([0x12, 0x34] : List Byte).length ≤ 4096 ∧ 1 < ([0x12, 0x34] : List Byte).length ∧ Config.standard.WF := by
  decide

end Sys2Proof.Tests
end

section
/-! The effect of an instruction: `exec` answers a next state for every instruction, and that state differs from the one
before it in one of the ways of `Effect`. The statements on what an instruction writes and on the invariant are read off
it. -/

namespace Sys2Proof.Machine

/-! ### Kinds of instructions -/

/-- The cause with which an instruction can end the run (rule R244). -/
def haltCause : Instr → Option Cause
  | .ret => some .stackUnderflow
  | .call _ => some .stackOverflow
  | .drw _ _ _ | .ldB _ | .storeRegs _ | .loadRegs _ => some .memoryOutOfBounds
  | _ => none

theorem haltCause_eq_some {i : Instr} {c : Cause} (h : haltCause i = some c) :
    i = .ret ∨ (∃ nnn, i = .call nnn) ∨ (∃ x y n, i = .drw x y n) ∨ (∃ x, i = .ldB x) ∨ (∃ x, i = .storeRegs x) ∨
      ∃ x, i = .loadRegs x := by
  unfold haltCause at h
  split at h
  · exact .inl rfl
  · exact .inr (.inl ⟨_, rfl⟩)
  · exact .inr (.inr (.inl ⟨_, _, _, rfl⟩))
  · exact .inr (.inr (.inr (.inl ⟨_, rfl⟩)))
  · exact .inr (.inr (.inr (.inr (.inl ⟨_, rfl⟩))))
  · exact .inr (.inr (.inr (.inr (.inr ⟨_, rfl⟩))))
  · cases h

/-- The conditional skips (rules R133 to R136, R220, R221). -/
def IsSkip (i : Instr) : Prop :=
  (∃ x nn, i = .seImm x nn ∨ i = .sneImm x nn) ∨ (∃ x y, i = .seReg x y ∨ i = .sneReg x y) ∨ ∃ x, i = .skp x ∨ i = .sknp x

/-- The instructions that set or move `I` (rule R26). -/
def WritesIndex (i : Instr) : Prop := (∃ nnn, i = .ldI nnn) ∨ (∃ x, i = .addI x) ∨ ∃ x, i = .ldF x

/-- The instructions that store to memory (rule R50). -/
def WritesMemory (i : Instr) : Prop := (∃ x, i = .ldB x) ∨ ∃ x, i = .storeRegs x

/-! ### Effects -/

/-- The state after an instruction, as the state before it with the elements that the instruction writes. -/
inductive Effect (s : State) : Instr → State → Prop
  /-- A fatal condition writes RUN alone (rule R246). -/
  | halt {i : Instr} (c : Cause) (hi : haltCause i = some c) : Effect s i (raiseFatal c s)
  /-- Register loads, arithmetic, logic, the random byte, Fx07 and Fx65 (rule R24). -/
  | regs {i : Instr} (v : Vector Byte 16)
      (hv : ∀ r, r ∉ writtenRegs i → ({ s with v := v } : State).getV r = s.getV r) : Effect s i { s with v := v }
  | skip {i : Instr} (hi : IsSkip i) (c : Bool) : Effect s i { s with pc := if c then s.pc + 2 else s.pc }
  | index {i : Instr} (hi : WritesIndex i) (w : Word) : Effect s i { s with i := w }
  | store {i : Instr} (hi : WritesMemory i) (m : Memory) (hm : s.mem.wf s.cfg.font → m.wf s.cfg.font) :
      Effect s i { s with mem := m }
  | cls : Effect s .cls { s with fb := [], clearReq := true }
  | draw (x y : Reg) (n : BitVec 4) :
      Effect s (.drw x y n) (drawSprite (spriteX s.cfg (s.getV x)) (spriteY s.cfg (s.getV y))
        (spriteRows s.cfg (spriteY s.cfg (s.getV y)) n) s)
  | ret (h : s.sp ≠ 0) : Effect s .ret (s.setPc s.stackTop).pop
  | call (nnn : BitVec 12) (h : s.sp + 1 < s.cfg.stackSize) :
      Effect s (.call nnn) ((s.push s.pc).setPc (address nnn))
  | jp (nnn : BitVec 12) : Effect s (.jp nnn) (s.setPc (address nnn))
  | jpV0 (nnn : BitVec 12) : Effect s (.jpV0 nnn) (s.setPc (address nnn + widen (s.getV 0)))
  | keyWait (x : Reg) : Effect s (.ldVxK x) { s with run := .awaitKey x }
  | delayTimer (x : Reg) : Effect s (.ldDtVx x) { s with dt := s.getV x }
  | soundTimer (x : Reg) : Effect s (.ldStVx x) { s with st := s.getV x }
  | unmapped (w : Word) : Effect s (.unmapped w) s

/-! ### The effect of each shared operation -/

theorem getV_writeWithFlag_other {x r : Reg} (hx : r ≠ x) (hf : r ≠ vf) (a b : Byte) (s : State) :
    (writeWithFlag x a b s).getV r = s.getV r := by
  by_cases h : x = vf
  · subst h
    rw [getV_writeWithFlag_vf, if_neg hf]
  · rw [getV_writeWithFlag h, if_neg hx, if_neg hf]

namespace Effect

variable {s : State} {i : Instr}

theorem of_setV {x : Reg} (hx : x ∈ writtenRegs i) (w : Byte) : Effect s i (s.setV x w) :=
  .regs _ fun _ hr => State.getV_setV_ne s (ne_of_mem_of_not_mem hx hr) w

theorem of_writeWithFlag {x : Reg} (hx : writtenRegs i = [x, vf]) (a b : Byte) :
    Effect s i (writeWithFlag x a b s) := by
  have hv : ∀ r, r ∉ writtenRegs i → (writeWithFlag x a b s).getV r = s.getV r := fun r hr => by
    obtain ⟨hrx, hrf⟩ : r ≠ x ∧ r ≠ vf := by simpa [hx] using hr
    exact getV_writeWithFlag_other hrx hrf a b s
  rw [writeWithFlag_eq] at hv ⊢
  exact .regs _ hv

theorem of_loadFrom {ks : List Reg} (hks : writtenRegs i = ks) (a : Nat) : Effect s i (State.loadFrom a ks s) := by
  have hv : ∀ r, r ∉ writtenRegs i → (State.loadFrom a ks s).getV r = s.getV r :=
    fun _ hr => State.getV_loadFrom_other a ks s (hks ▸ hr)
  rw [State.loadFrom_eq] at hv ⊢
  exact .regs _ hv

theorem of_skipIf (hi : IsSkip i) (c : Bool) : Effect s i (State.skipIf c s) := by
  rw [State.skipIf_eq]
  exact .skip hi c

theorem of_storeBytes (hi : WritesMemory i) (a : Nat) (ws : List Byte) : Effect s i (s.storeBytes a ws) := by
  rw [State.storeBytes_eq]
  exact .store hi _ (State.storeBytes_wf ws s a)

/-- A meaning that first checks for its fatal condition. -/
theorem of_check {p : Prop} [Decidable p] {c : Cause} {t : State} (hc : haltCause i = some c)
    (ht : ¬ p → Effect s i t) :
    ∃ u, (if p then .next (raiseFatal c s) else .next t : Host.Outcome State Fault Refusal) = .next u ∧
      Effect s i u := by
  split
  · exact ⟨_, rfl, .halt c hc⟩
  · next hp => exact ⟨_, rfl, ht hp⟩

end Effect

/-! ### Every instruction has an effect -/

theorem exec_effect (s : State) : ∀ i : Instr, ∃ t, exec i s = .next t ∧ Effect s i t
  | .cls => ⟨_, rfl, .cls⟩
  | .ret => Effect.of_check rfl .ret
  | .jp nnn => ⟨_, rfl, .jp nnn⟩
  | .call nnn => Effect.of_check rfl fun h => .call nnn (Nat.lt_of_not_le h)
  | .jpV0 nnn => ⟨_, rfl, .jpV0 nnn⟩
  | .seImm x nn => ⟨_, rfl, .of_skipIf (.inl ⟨x, nn, .inl rfl⟩) _⟩
  | .sneImm x nn => ⟨_, rfl, .of_skipIf (.inl ⟨x, nn, .inr rfl⟩) _⟩
  | .seReg x y => ⟨_, rfl, .of_skipIf (.inr (.inl ⟨x, y, .inl rfl⟩)) _⟩
  | .sneReg x y => ⟨_, rfl, .of_skipIf (.inr (.inl ⟨x, y, .inr rfl⟩)) _⟩
  | .skp x => ⟨_, rfl, .of_skipIf (.inr (.inr ⟨x, .inl rfl⟩)) _⟩
  | .sknp x => ⟨_, rfl, .of_skipIf (.inr (.inr ⟨x, .inr rfl⟩)) _⟩
  | .ldImm _ _ | .addImm _ _ | .ldReg _ _ | .orReg _ _ | .andReg _ _ | .xorReg _ _ | .rnd _ _ | .ldVxDt _ =>
    ⟨_, rfl, .of_setV List.mem_cons_self _⟩
  | .addReg _ _ | .sub _ _ | .shr _ _ | .subn _ _ | .shl _ _ => ⟨_, rfl, .of_writeWithFlag rfl _ _⟩
  | .ldI nnn => ⟨_, rfl, .index (.inl ⟨nnn, rfl⟩) _⟩
  | .addI x => ⟨_, rfl, .index (.inr (.inl ⟨x, rfl⟩)) _⟩
  | .ldF x => ⟨_, rfl, .index (.inr (.inr ⟨x, rfl⟩)) _⟩
  | .drw x y n => Effect.of_check rfl fun _ => .draw x y n
  | .ldVxK x => ⟨_, rfl, .keyWait x⟩
  | .ldDtVx x => ⟨_, rfl, .delayTimer x⟩
  | .ldStVx x => ⟨_, rfl, .soundTimer x⟩
  | .ldB x => Effect.of_check rfl fun _ => .of_storeBytes (.inl ⟨x, rfl⟩) _ _
  | .storeRegs x => Effect.of_check rfl fun _ => .of_storeBytes (.inr ⟨x, rfl⟩) _ _
  | .loadRegs _ => Effect.of_check rfl fun _ => .of_loadFrom rfl _
  | .unmapped w => ⟨_, rfl, .unmapped w⟩

theorem effect_of_exec {i : Instr} {s t : State} (h : exec i s = .next t) : Effect s i t := by
  obtain ⟨u, hu, he⟩ := exec_effect s i
  rwa [Host.Outcome.next.inj (h.symm.trans hu)]

/-! ### Which instruction writes each element of the state -/

namespace Effect

variable {s t : State} {i : Instr}

theorem getV_of_notMem (h : Effect s i t) {r : Reg} (hr : r ∉ writtenRegs i) : t.getV r = s.getV r := by
  cases h with
  | regs v hv => exact hv r hr
  | draw x y n =>
    have hvf : r ≠ vf := by simpa [writtenRegs] using hr
    rw [getV_drawSprite, if_neg hvf]
  | _ => rfl

theorem writer_of_v (h : Effect s i t) (hne : t.v ≠ s.v) : writtenRegs i ≠ [] := fun hnil =>
  hne (Vector.ext fun j hj => h.getV_of_notMem (r := ⟨j, hj⟩) (by simp [hnil]))

theorem writer_of_fb (h : Effect s i t) (hne : t.fb ≠ s.fb) : i = .cls ∨ ∃ x y n, i = .drw x y n := by
  cases h with
  | cls => exact .inl rfl
  | draw x y n => exact .inr ⟨x, y, n, rfl⟩
  | _ => exact absurd rfl hne

theorem writer_of_stack (h : Effect s i t) (hne : t.stack ≠ s.stack) : ∃ nnn, i = .call nnn := by
  cases h with
  | call nnn => exact ⟨nnn, rfl⟩
  | _ => exact absurd rfl hne

theorem writer_of_sp (h : Effect s i t) (hne : t.sp ≠ s.sp) : i = .ret ∨ ∃ nnn, i = .call nnn := by
  cases h with
  | ret => exact .inl rfl
  | call nnn => exact .inr ⟨nnn, rfl⟩
  | _ => exact absurd rfl hne

theorem writer_of_index (h : Effect s i t) (hne : t.i ≠ s.i) : WritesIndex i := by
  cases h with
  | index hi => exact hi
  | _ => exact absurd rfl hne

theorem writer_of_dt (h : Effect s i t) (hne : t.dt ≠ s.dt) : ∃ x, i = .ldDtVx x := by
  cases h with
  | delayTimer x => exact ⟨x, rfl⟩
  | _ => exact absurd rfl hne

theorem writer_of_st (h : Effect s i t) (hne : t.st ≠ s.st) : ∃ x, i = .ldStVx x := by
  cases h with
  | soundTimer x => exact ⟨x, rfl⟩
  | _ => exact absurd rfl hne

theorem writer_of_mem (h : Effect s i t) (hne : t.mem ≠ s.mem) : WritesMemory i := by
  cases h with
  | store hi => exact hi
  | _ => exact absurd rfl hne

theorem writer_of_clearReq (h : Effect s i t) (hne : t.clearReq ≠ s.clearReq) : i = .cls := by
  cases h with
  | cls => rfl
  | _ => exact absurd rfl hne

theorem writer_of_redrawReq (h : Effect s i t) (hne : t.redrawReq ≠ s.redrawReq) : ∃ x y n, i = .drw x y n := by
  cases h with
  | draw x y n => exact ⟨x, y, n, rfl⟩
  | _ => exact absurd rfl hne

theorem writer_of_pc (h : Effect s i t) (hne : t.pc ≠ s.pc) :
    i = .ret ∨ (∃ a, i = .jp a ∨ i = .call a ∨ i = .jpV0 a) ∨ IsSkip i := by
  cases h with
  | ret => exact .inl rfl
  | jp nnn => exact .inr (.inl ⟨nnn, .inl rfl⟩)
  | call nnn => exact .inr (.inl ⟨nnn, .inr (.inl rfl)⟩)
  | jpV0 nnn => exact .inr (.inl ⟨nnn, .inr (.inr rfl)⟩)
  | skip hi => exact .inr (.inr hi)
  | _ => exact absurd rfl hne

theorem writer_of_run (h : Effect s i t) (hne : t.run ≠ s.run) :
    (∃ x, t.run = .awaitKey x ∧ i = .ldVxK x) ∨ ∃ c, t.run = .halted c ∧ haltCause i = some c := by
  cases h with
  | keyWait x => exact .inl ⟨x, rfl, rfl⟩
  | halt c hi => exact .inr ⟨c, rfl, hi⟩
  | _ => exact absurd rfl hne

end Effect

/-! ### Settled: what an instruction writes -/

/-- Settles O53: a register outside the table's list keeps its value in every effect. -/
theorem registersAreWrittenOnlyAsTheTableSays : Obligations.RegistersAreWrittenOnlyAsTheTableSays :=
  fun _ _ _ _ h hr => (effect_of_exec h).getV_of_notMem hr

/-- Settles O52: each element's writers are read off the effects, and `exec_eq` has the elements with none. -/
theorem stateIsWrittenOnlyByItsInstructions : Obligations.StateIsWrittenOnlyByItsInstructions := by
  intro i s t h
  have he := effect_of_exec h
  refine ⟨he.writer_of_fb, he.writer_of_stack, he.writer_of_sp, he.writer_of_index, he.writer_of_dt, he.writer_of_st,
    he.writer_of_mem, he.writer_of_clearReq, he.writer_of_redrawReq, he.writer_of_pc, he.writer_of_v,
    fun hne => (he.writer_of_run hne).imp_right fun ⟨c, hc, hi⟩ => ⟨c, hc, haltCause_eq_some hi⟩,
    ?_, ?_, ?_, ?_, ?_, ?_, ?_⟩
  all_goals rw [exec_eq h]

end Sys2Proof.Machine
end

section
/-! The transitions of a step, each with the calls and gates that select it, and what every transition keeps: the
invariant and the configuration. -/

namespace Sys2Proof.Machine

/-! ### Transitions -/

/-- Two states that differ at most in the host's queue: which calls are given and how many inputs have been drawn. -/
def SameButCalls (s s' : State) : Prop := s' = { s with pending := s'.pending, draws := s'.draws }

/-- One transition of rule R100. `s'` is the state less the call that it answers. -/
inductive Transition (s : State) : State → Prop
  | timersOnly {s' : State} {input : StepInput} (hr : s.run = .running) (hs : SameButCalls s s')
      (hd : ¬ InstrDue s' input.now) : Transition s (timerPhase input s')
  | fetchFails {s' : State} {input : StepInput} (hr : s.run = .running) (hs : SameButCalls s s')
      (hd : InstrDue s' input.now) (hf : FetchFails s') :
      Transition s (raiseFatal .programOutOfBounds { timerPhase input s' with tInstr := input.now })
  | instr {s' t : State} {input : StepInput} (hr : s.run = .running) (hs : SameButCalls s s')
      (hd : InstrDue s' input.now) (hf : ¬ FetchFails s')
      (ht : exec (decode (wordAt s' s'.pc.toNat))
        { timerPhase input s' with tInstr := input.now, pc := s'.pc + 2 } = .next t) : Transition s t
  | keyPressed {s' : State} {x : Reg} {k : Nat} (hr : s.run = .awaitKey x) (hs : SameButCalls s s') (hk : k < 16) :
      Transition s { s'.setV x (BitVec.ofNat 8 k) with run := .running }
  | keyCancelled {s' : State} {x : Reg} (hr : s.run = .awaitKey x) (hs : SameButCalls s s') :
      Transition s (raiseFatal .keyWaitCancelled s')

theorem transition_of_stepCall {s s' t : State} {input : StepInput} (hr : s.run = .running) (hs : SameButCalls s s')
    (h : stepCall input s' = .next t) : Transition s t := by
  obtain ⟨hd, heq⟩ | ⟨hd, hf, heq⟩ | ⟨hd, hf, heq⟩ := stepCall_cases input s'
  · rw [Host.Outcome.next.inj (h.symm.trans heq)]
    exact .timersOnly hr hs hd
  · rw [Host.Outcome.next.inj (h.symm.trans heq)]
    exact .fetchFails hr hs hd hf
  · exact .instr hr hs hd hf (heq.symm.trans h)

theorem transition_of_keyCall {s s' t : State} {x : Reg} {e : KeyEvent} (hr : s.run = .awaitKey x)
    (hs : SameButCalls s s') (h : keyCall x e s' = .next t) : Transition s t := by
  obtain ⟨k, hk, _, rfl⟩ | ⟨_, rfl⟩ := keyCall_next h
  · exact .keyPressed hr hs hk
  · exact .keyCancelled hr hs

theorem transition_of_step {s t : State} (h : step s = .next t) : Transition s t := by
  obtain ⟨input, s', hr, heq, hs⟩ | ⟨x, e, s', hr, heq, hs⟩ | ⟨c, _, heq⟩ | ⟨_, r, heq⟩ := step_cases s
  · exact transition_of_stepCall hr hs (heq.symm.trans h)
  · exact transition_of_keyCall hr hs (heq.symm.trans h)
  · cases heq.symm.trans h
  · cases heq.symm.trans h

/-! ### The configuration -/

theorem cfg_of_sameButCalls {s s' : State} (h : SameButCalls s s') : s'.cfg = s.cfg := by rw [h]

@[simp] theorem timerPhase_cfg (input : StepInput) (s : State) : (timerPhase input s).cfg = s.cfg := by
  rw [timerPhase_eq]

theorem cfg_of_exec {i : Instr} {s t : State} (h : exec i s = .next t) : t.cfg = s.cfg := by
  rw [exec_eq h]

/-- Settles O57: every transition keeps the configuration. -/
theorem configurationIsFixedForARun : Obligations.ConfigurationIsFixedForARun := by
  intro s t h
  cases transition_of_step h with
  | timersOnly _ hs | fetchFails _ hs => simpa using cfg_of_sameButCalls hs
  | instr _ hs _ _ ht => simpa [cfg_of_exec ht] using cfg_of_sameButCalls hs
  | keyPressed _ hs | keyCancelled _ hs => simpa using cfg_of_sameButCalls hs

/-! ### The invariant -/

theorem toNat_address_le (nnn : BitVec 12) : (address nnn).toNat ≤ 0xFFF := by
  unfold address
  bv_omega

/-- An unmasked Bnnn reaches at most 0x10FE (rule R29; D9). -/
theorem toNat_address_add_widen_le (nnn : BitVec 12) (b : Byte) : (address nnn + widen b).toNat ≤ 0x10FE := by
  unfold address widen
  bv_omega

namespace State.Inv

variable {s t : State}

theorem sameButCalls (h : s.Inv) (hs : SameButCalls s t) : t.Inv := by
  rw [hs]
  exact h.of_kept rfl rfl rfl rfl rfl rfl

/-- The fetch's advance, which a fetch inside memory keeps at most 0x1000. -/
theorem fetched (h : s.Inv) (hf : ¬ FetchFails s) (input : StepInput) :
    ({ Machine.timerPhase input s with tInstr := input.now, pc := s.pc + 2 } : State).Inv ∧
      (s.pc + 2).toNat ≤ 0x1000 := by
  have hpc : (s.pc + 2).toNat ≤ 0x1000 := by
    simp only [FetchFails, Config.memSize] at hf
    bv_omega
  have htick : ({ Machine.timerPhase input s with tInstr := input.now } : State).Inv :=
    (h.timerPhase input).of_kept rfl rfl rfl rfl rfl rfl
  exact ⟨htick.setPc (by omega), hpc⟩

/-- Every effect keeps the invariant, from a pc at most 0x1000: the return address that 2nnn pushes. -/
theorem of_effect {i : Instr} (h : s.Inv) (hpc : s.pc.toNat ≤ 0x1000) (he : Effect s i t) : t.Inv := by
  cases he with
  | halt c => exact h.raiseFatal c
  | skip _ c => exact State.skipIf_eq s c ▸ h.skipIf hpc c
  | store _ m hm => exact ⟨h.cfg, hm h.mem, h.fb, h.stack_size, h.sp_lt, h.slots_le, h.pc_le⟩
  | cls => exact ⟨h.cfg, h.mem, Framebuffer.wf_nil _, h.stack_size, h.sp_lt, h.slots_le, h.pc_le⟩
  | draw x y n =>
    obtain ⟨_, _, _, hfbH, _⟩ := h.cfg
    exact h.drawSprite (spriteRows_le _ _ _ (Nat.mod_lt _ hfbH))
  | ret => exact (h.setPc (h.stackTop_le.trans (by decide))).pop
  | call nnn hsp => exact (h.push hsp hpc).setPc ((toNat_address_le nnn).trans (by decide))
  | jp nnn => exact h.setPc ((toNat_address_le nnn).trans (by decide))
  | jpV0 nnn => exact h.setPc (toNat_address_add_widen_le nnn _)
  | regs | index | keyWait | delayTimer | soundTimer | unmapped => exact h.of_kept rfl rfl rfl rfl rfl rfl

end State.Inv

/-- Settles O56: by the transitions, and for an instruction by its effect on the state after the fetch. -/
theorem stepKeepsInvariant : Obligations.StepKeepsInvariant := by
  intro s t hinv h
  cases transition_of_step h with
  | timersOnly _ hs => exact (hinv.sameButCalls hs).timerPhase _
  | fetchFails _ hs => exact ((hinv.sameButCalls hs).timerPhase _).of_kept rfl rfl rfl rfl rfl rfl
  | instr _ hs _ hf ht =>
    obtain ⟨hfetched, hpc⟩ := (hinv.sameButCalls hs).fetched hf _
    exact hfetched.of_effect hpc (effect_of_exec ht)
  | keyPressed _ hs => exact (hinv.sameButCalls hs).of_kept rfl rfl rfl rfl rfl rfl
  | keyCancelled _ hs => exact (hinv.sameButCalls hs).raiseFatal _

end Sys2Proof.Machine
end

section
/-! Construction: the state it leaves is the blank state with the ROM in memory. -/

namespace Sys2Proof.Machine

theorem blankState_inv {cfg : Config} (h : cfg.WF) (start : Nat) : (blankState cfg start).Inv where
  cfg := h
  mem := Memory.wf_nil _
  fb := Framebuffer.wf_nil _
  stack_size := List.length_replicate
  sp_lt := Nat.lt_of_lt_of_le (show 0 < 16 by decide) h.1
  slots_le := fun w hw => by simp [List.eq_of_mem_replicate hw]
  pc_le := show (0x200 : Word).toNat ≤ 0x10FE by decide

/-- Construction from a ROM that fits: the blank state but for a canonical memory, which reads the ROM at its addresses
and elsewhere what an unlisted address reads (rules R52 to R54). -/
theorem construct_of_fits (cfg : Config) (rom : List Byte) (start : Nat) (hfit : 0x200 + rom.length ≤ 4096) :
    ∃ m : Memory, construct cfg rom start = .next { blankState cfg start with mem := m } ∧ m.wf cfg.font ∧
      (∀ k, (h : k < rom.length) → m.read cfg.font (0x200 + k) = rom[k]) ∧
      ∀ a, a < 0x200 ∨ 0x200 + rom.length ≤ a → m.read cfg.font a = unlisted cfg.font a := by
  have hwf : (blankState cfg start).mem.wf cfg.font := Memory.wf_nil _
  have haddr : ∀ k, k < rom.length → State.addr (0x200 + k) = 0x200 + k := fun k hk =>
    State.addr_of_lt (show 0x200 + k < 4096 by omega)
  refine ⟨((blankState cfg start).storeBytes 0x200 rom).mem, ?_, State.storeBytes_wf rom _ _ hwf, fun k hk => ?_,
    fun a ha => ?_⟩
  · rw [← State.storeBytes_eq]
    exact if_neg (Nat.not_lt.2 hfit)
  · have := State.readByte_storeBytes rom (blankState cfg start) 0x200 k hwf hk
      (show rom.length ≤ 4096 by omega)
    rwa [haddr k hk, State.readByte, State.storeBytes_cfg] at this
  · have := State.readByte_storeBytes_other rom (blankState cfg start) 0x200 a hwf fun k hk => by
      rw [haddr k hk]
      omega
    rwa [State.readByte, State.storeBytes_cfg] at this

/-- Settles O58: the blank state's registers and framebuffer, and the bytes outside the font and the ROM. -/
theorem constructionZeroesRegistersFrameAndMemory : Obligations.ConstructionZeroesRegistersFrameAndMemory := by
  intro cfg rom start hfit
  obtain ⟨m, hc, -, -, hother⟩ := construct_of_fits cfg rom start hfit
  have hzero : ∀ a, 0x50 ≤ a → unlisted cfg.font a = 0 := fun a ha => dif_neg (Nat.not_lt.2 ha)
  refine ⟨_, hc, fun r => Vector.getElem_replicate r.isLt, rfl, fun _ _ => rfl, fun a hlo hhi => ?_, fun a ha _ => ?_⟩
  · exact (hother a (.inl hhi)).trans (hzero a hlo)
  · exact (hother a (.inr ha)).trans (hzero a (by omega))

/-- Settles O60: the ROM's and the font's bytes, the blank state's values and its invariant. -/
theorem constructionLoadsRomAndFont : Obligations.ConstructionLoadsRomAndFont := by
  refine ⟨fun cfg rom start hfit => ?_, rfl⟩
  obtain ⟨m, hc, hwf, hrom, hother⟩ := construct_of_fits cfg rom start hfit
  refine ⟨_, hc, hrom, fun a ha => ?_, rfl, rfl, rfl, rfl, rfl, rfl, rfl, rfl, rfl, rfl, rfl, rfl, fun hcfg => ?_⟩
  · exact (hother a (.inl (by omega))).trans (dif_pos ha)
  · have h := blankState_inv hcfg start
    exact ⟨h.cfg, hwf, h.fb, h.stack_size, h.sp_lt, h.slots_le, h.pc_le⟩

end Sys2Proof.Machine
end

section
/-! The memory transfers Fx33, Fx55 and Fx65 within their range check, each byte at its `Addr` (rule R183), and the fetch
of a stored word. -/

namespace Sys2Proof.Machine

variable {s : State} {x : Reg}

/-! ### The range check -/

theorem not_rangeFails_of_wrap (hw : s.cfg.memOobPolicy = .wrap) (h : Nat) : ¬ RangeFails s h := by
  simp [RangeFails, hw]

theorem not_rangeFails_of_lt {h : Nat} (hlt : s.i.toNat + h < 4096) : ¬ RangeFails s h :=
  fun hf => absurd hf.1 (Nat.not_le.2 hlt)

theorem exec_ldB_of_inRange (h : ¬ RangeFails s 2) :
    exec (.ldB x) s = .next (s.storeBytes s.i.toNat (bcdDigits (s.getV x))) := if_neg h

theorem exec_storeRegs_of_inRange (h : ¬ RangeFails s x.val) :
    exec (.storeRegs x) s = .next (s.storeBytes s.i.toNat (regBytes s x)) := if_neg h

theorem exec_loadRegs_of_inRange (h : ¬ RangeFails s x.val) :
    exec (.loadRegs x) s = .next (State.loadFrom s.i.toNat (State.regsUpTo x) s) := if_neg h

/-! ### What a transfer stores and loads -/

/-- Storing bytes changes only the bytes at the addresses it reaches. -/
theorem onlyBytesChange_storeBytes {p : Nat → Prop} {a : Nat} {ws : List Byte} (hwf : s.mem.wf s.cfg.font)
    (hp : ∀ k, k < ws.length → p (State.addr (a + k))) : OnlyBytesChange p s (s.storeBytes a ws) :=
  ⟨State.storeBytes_eq ws s a, State.getV_storeBytes s a ws, fun _ hb =>
    State.readByte_storeBytes_other ws s a _ hwf fun k hk heq => hb (heq ▸ hp k hk)⟩

/-- The three digits, hundreds first, as numbers (rule R184). -/
theorem toNat_readByte_storeBytes_bcdDigits (hwf : s.mem.wf s.cfg.font) (a : Nat) (b : Byte) :
    ((s.storeBytes a (bcdDigits b)).readByte (State.addr a)).toNat = b.toNat / 100 ∧
    ((s.storeBytes a (bcdDigits b)).readByte (State.addr (a + 1))).toNat = b.toNat / 10 % 10 ∧
    ((s.storeBytes a (bcdDigits b)).readByte (State.addr (a + 2))).toNat = b.toNat % 10 := by
  have hread (k : Nat) (hk : k < (bcdDigits b).length) :
      (s.storeBytes a (bcdDigits b)).readByte (State.addr (a + k)) = (bcdDigits b)[k] :=
    State.readByte_storeBytes (bcdDigits b) s a k hwf hk (show 3 ≤ 4096 by decide)
  exact ⟨congrArg BitVec.toNat (hread 0 (show 0 < 3 by decide)), congrArg BitVec.toNat (hread 1 (show 1 < 3 by decide)),
    congrArg BitVec.toNat (hread 2 (show 2 < 3 by decide))⟩

/-- The registers V0 to Vx, stored in order, read back at their addresses (rule R185). -/
theorem readByte_storeBytes_regBytes (hwf : s.mem.wf s.cfg.font) (a : Nat) {k : Reg} (hk : k ≤ x) :
    (s.storeBytes a (regBytes s x)).readByte (State.addr (a + k.val)) = s.getV k := by
  have hlen : k.val < (regBytes s x).length := by simpa [Nat.lt_succ_iff] using hk
  have hsize : (regBytes s x).length ≤ Config.memSize := by
    rw [length_regBytes]
    exact x.isLt.trans (by decide)
  rw [State.readByte_storeBytes _ s a k.val hwf hlen hsize, getElem_regBytes s x k hk]

/-- Fx65 loads V0 to Vx from their addresses and leaves every other register (rule R186). -/
theorem getV_loadFrom_regsUpTo (a : Nat) (k : Reg) :
    (State.loadFrom a (State.regsUpTo x) s).getV k = if k ≤ x then s.readByte (State.addr (a + k.val)) else s.getV k := by
  split
  · next hk => exact State.getV_loadFrom a _ s (State.regsUpTo_nodup x) (State.mem_regsUpTo.2 hk)
  · next hk => exact State.getV_loadFrom_other a _ s fun hm => hk (State.mem_regsUpTo.1 hm)

/-- Settles O39: `Wrap` passes every range check, and `Addr` is the address modulo 4096. -/
theorem wrapPolicyReachesModulo4096 : Obligations.WrapPolicyReachesModulo4096 := by
  intro x s hwf hwrap
  have hrange := not_rangeFails_of_wrap hwrap
  have hmod (k : Nat) : State.addr (s.i.toNat + k) = (s.i.toNat + k) % 4096 := State.addr_eq_mod _
  refine ⟨⟨_, exec_ldB_of_inRange (hrange 2), ?_⟩, ⟨_, exec_storeRegs_of_inRange (hrange x.val), ?_⟩,
    ⟨_, exec_loadRegs_of_inRange (hrange x.val), ?_⟩⟩
  · obtain ⟨hundreds, tens, ones⟩ := toNat_readByte_storeBytes_bcdDigits hwf s.i.toNat (s.getV x)
    refine ⟨hmod 0 ▸ hundreds, hmod 1 ▸ tens, hmod 2 ▸ ones, ?_⟩
    exact onlyBytesChange_storeBytes hwf fun k hk => ⟨k, Nat.le_of_lt_succ hk, hmod k⟩
  · refine ⟨fun k hk => hmod k.val ▸ readByte_storeBytes_regBytes hwf s.i.toNat hk, ?_⟩
    exact onlyBytesChange_storeBytes hwf fun k hk => ⟨k, by simpa [Nat.lt_succ_iff] using hk, hmod k⟩
  · refine ⟨fun k hk => ?_, fun k hk => ?_, State.loadFrom_eq _ _ s, State.readByte_loadFrom _ _ s⟩
    · rw [getV_loadFrom_regsUpTo, if_pos hk, hmod]
    · rw [getV_loadFrom_regsUpTo, if_neg (not_le.2 hk)]

/-! ### Self-modified code -/

/-- A `Step` call whose instruction gate fires and whose fetch is inside memory runs the word at pc (rules R106, R107). -/
theorem stepCall_of_fetch {input : StepInput} (hd : InstrDue s input.now) (hf : ¬ FetchFails s) :
    stepCall input s =
      exec (decode (wordAt s s.pc.toNat)) { timerPhase input s with tInstr := input.now, pc := s.pc + 2 } := by
  obtain ⟨hnd, _⟩ | ⟨_, hff, _⟩ | ⟨_, _, heq⟩ := stepCall_cases input s
  · exact absurd hd hnd
  · exact absurd hff hf
  · exact heq

/-- Two registers in a row that Fx55 stored inside memory are the word at the first one's address (rule R55). -/
theorem wordAt_storeBytes_regBytes {k j : Reg} (hwf : s.mem.wf s.cfg.font) (hin : s.i.toNat + x.val < 4096)
    (hj : j.val = k.val + 1) (hjx : j ≤ x) :
    wordAt (s.storeBytes s.i.toNat (regBytes s x)) (s.i.toNat + k.val) = s.getV k ++ s.getV j := by
  have hread {r : Reg} (hr : r ≤ x) :
      (s.storeBytes s.i.toNat (regBytes s x)).readByte (s.i.toNat + r.val) = s.getV r := by
    have haddr : State.addr (s.i.toNat + r.val) = s.i.toNat + r.val :=
      State.addr_of_lt (Nat.lt_of_le_of_lt (Nat.add_le_add_left hr _) hin)
    exact haddr ▸ readByte_storeBytes_regBytes hwf s.i.toNat hr
  have hkx : k ≤ x := Fin.le_def.2 (by have := Fin.le_def.1 hjx; omega)
  rw [wordAt, hread hkx, Nat.add_assoc, ← hj, hread hjx]

/-- Settles O42: the fetch is inside memory, and its word is the two registers stored there. -/
theorem storedCodeRunsAtTheNextFetch : Obligations.StoredCodeRunsAtTheNextFetch := by
  intro x k j s t u input rest hwf hin hj hjx hstore hmem hcfg hpc hrun hpending hdue
  obtain rfl : s.storeBytes s.i.toNat (regBytes s x) = t :=
    Host.Outcome.next.inj ((exec_storeRegs_of_inRange (not_rangeFails_of_lt hin)).symm.trans hstore)
  have hfetch : ¬ FetchFails { u with pending := rest } := by
    have := Fin.le_def.1 hjx
    simp only [FetchFails, Config.memSize]
    omega
  have hword : wordAt { u with pending := rest } u.pc.toNat = s.getV k ++ s.getV j := by
    rw [hpc, ← wordAt_storeBytes_regBytes hwf hin hj hjx]
    simp only [wordAt, State.readByte, hmem, hcfg]
  rw [step_given hrun hpending, ← hword]
  exact stepCall_of_fetch hdue hfetch

end Sys2Proof.Machine
end

section
/-! The opcode table against the decoder and the encoder: each row's instruction is encoded by the words of the row, so
the round trip of the encoding gives what those words decode to. -/

namespace Sys2Proof

/-- Settles O1: one lemma per constructor, from the fields of its format; an unmapped word by its rows. -/
theorem decodeOfEncodeIsIdentity : Obligations.DecodeOfEncodeIsIdentity := fun
  | .cls => Laws.RoundTrip.cls
  | .ret => Laws.RoundTrip.ret
  | .jp nnn => Laws.RoundTrip.jp nnn
  | .call nnn => Laws.RoundTrip.call nnn
  | .seImm x nn => Laws.RoundTrip.seImm x nn
  | .sneImm x nn => Laws.RoundTrip.sneImm x nn
  | .seReg x y => Laws.RoundTrip.seReg x y
  | .ldImm x nn => Laws.RoundTrip.ldImm x nn
  | .addImm x nn => Laws.RoundTrip.addImm x nn
  | .ldReg x y => Laws.RoundTrip.ldReg x y
  | .orReg x y => Laws.RoundTrip.orReg x y
  | .andReg x y => Laws.RoundTrip.andReg x y
  | .xorReg x y => Laws.RoundTrip.xorReg x y
  | .addReg x y => Laws.RoundTrip.addReg x y
  | .sub x y => Laws.RoundTrip.sub x y
  | .shr x y => Laws.RoundTrip.shr x y
  | .subn x y => Laws.RoundTrip.subn x y
  | .shl x y => Laws.RoundTrip.shl x y
  | .sneReg x y => Laws.RoundTrip.sneReg x y
  | .ldI nnn => Laws.RoundTrip.ldI nnn
  | .jpV0 nnn => Laws.RoundTrip.jpV0 nnn
  | .rnd x nn => Laws.RoundTrip.rnd x nn
  | .drw x y n => Laws.RoundTrip.drw x y n
  | .skp x => Laws.RoundTrip.skp x
  | .sknp x => Laws.RoundTrip.sknp x
  | .ldVxDt x => Laws.RoundTrip.ldVxDt x
  | .ldVxK x => Laws.RoundTrip.ldVxK x
  | .ldDtVx x => Laws.RoundTrip.ldDtVx x
  | .ldStVx x => Laws.RoundTrip.ldStVx x
  | .addI x => Laws.RoundTrip.addI x
  | .ldF x => Laws.RoundTrip.ldF x
  | .ldB x => Laws.RoundTrip.ldB x
  | .storeRegs x => Laws.RoundTrip.storeRegs x
  | .loadRegs x => Laws.RoundTrip.loadRegs x
  | .unmapped w => Laws.RoundTrip.unmapped w

/-! ### The rows of the table -/

namespace OpcodeRow

/-- Every word of the row is the encoding of the well-formed instruction that the row builds from it. -/
def Encodes (r : OpcodeRow) : Prop := ∀ w : Word, r.Matches w → (r.build w).WF ∧ encode (r.build w) = w

section Formats
variable {pattern : Word} {f n : BitVec 4} {nn : Byte}

theorem encodes_const {i : Instr} (hi : i.WF ∧ encode i = pattern) : Encodes ⟨pattern, 0xFFFF, fun _ => i⟩ :=
  fun w h => ⟨hi.1, hi.2.trans (h.symm.trans (BitVec.and_allOnes (x := w)))⟩

theorem encodes_nnn (c : BitVec 12 → Instr) (hc : ∀ nnn, (c nnn).WF ∧ encode (c nnn) = ofNNN f nnn)
    (hp : pattern = ofDigits f 0 0 0) : Encodes ⟨pattern, 0xF000, fun w => c (fieldNNN w)⟩ := fun w h =>
  ⟨(hc _).1, (hc _).2.trans (eq_ofNNN ((matches_F000 w f).1 (h.trans hp)))⟩

theorem encodes_xnn (c : Reg → Byte → Instr) (hc : ∀ x nn, (c x nn).WF ∧ encode (c x nn) = ofXNN f x nn)
    (hp : pattern = ofDigits f 0 0 0) : Encodes ⟨pattern, 0xF000, fun w => c (fieldX w) (fieldNN w)⟩ := fun w h =>
  ⟨(hc _ _).1, (hc _ _).2.trans (eq_ofXNN ((matches_F000 w f).1 (h.trans hp)))⟩

theorem encodes_xyn (c : Reg → Reg → BitVec 4 → Instr)
    (hc : ∀ x y n, (c x y n).WF ∧ encode (c x y n) = ofDigits f x y n) (hp : pattern = ofDigits f 0 0 0) :
    Encodes ⟨pattern, 0xF000, fun w => c (fieldX w) (fieldY w) (fieldN w)⟩ := fun w h =>
  ⟨(hc _ _ _).1, (hc _ _ _).2.trans (eq_ofDigits ((matches_F000 w f).1 (h.trans hp)))⟩

theorem encodes_xy (c : Reg → Reg → Instr) (hc : ∀ x y, (c x y).WF ∧ encode (c x y) = ofDigits f x y n)
    (hp : pattern = ofDigits f 0 0 n) : Encodes ⟨pattern, 0xF00F, fun w => c (fieldX w) (fieldY w)⟩ := fun w h => by
  obtain ⟨hf, hn⟩ := (matches_F00F w f n).1 (h.trans hp)
  exact ⟨(hc _ _).1, (hc _ _).2.trans (hn ▸ eq_ofDigits hf)⟩

theorem encodes_x (c : Reg → Instr) (hc : ∀ x, (c x).WF ∧ encode (c x) = ofXNN f x nn)
    (hp : pattern = ofXNN f 0 nn) : Encodes ⟨pattern, 0xF0FF, fun w => c (fieldX w)⟩ := fun w h => by
  obtain ⟨hf, hnn⟩ := (matches_F0FF w f nn).1 (h.trans hp)
  exact ⟨(hc _).1, (hc _).2.trans (hnn ▸ eq_ofXNN hf)⟩

end Formats

theorem encodes_of_mem_opcodeRows1to9 : ∀ r ∈ opcodeRows1to9, r.Encodes := by
  simp only [opcodeRows1to9, List.forall_mem_cons]
  exact ⟨encodes_const ⟨rfl, rfl⟩, encodes_const ⟨rfl, rfl⟩,
    encodes_nnn .jp (fun _ => ⟨rfl, rfl⟩) rfl, encodes_nnn .call (fun _ => ⟨rfl, rfl⟩) rfl,
    encodes_xnn .seImm (fun _ _ => ⟨rfl, rfl⟩) rfl, encodes_xnn .sneImm (fun _ _ => ⟨rfl, rfl⟩) rfl,
    encodes_xy .seReg (fun _ _ => ⟨rfl, rfl⟩) rfl,
    encodes_xnn .ldImm (fun _ _ => ⟨rfl, rfl⟩) rfl, encodes_xnn .addImm (fun _ _ => ⟨rfl, rfl⟩) rfl,
    List.forall_mem_nil _⟩

theorem encodes_of_mem_opcodeRows10to18 : ∀ r ∈ opcodeRows10to18, r.Encodes := by
  simp only [opcodeRows10to18, List.forall_mem_cons]
  exact ⟨encodes_xy .ldReg (fun _ _ => ⟨rfl, rfl⟩) rfl, encodes_xy .orReg (fun _ _ => ⟨rfl, rfl⟩) rfl,
    encodes_xy .andReg (fun _ _ => ⟨rfl, rfl⟩) rfl, encodes_xy .xorReg (fun _ _ => ⟨rfl, rfl⟩) rfl,
    encodes_xy .addReg (fun _ _ => ⟨rfl, rfl⟩) rfl, encodes_xy .sub (fun _ _ => ⟨rfl, rfl⟩) rfl,
    encodes_xy .shr (fun _ _ => ⟨rfl, rfl⟩) rfl, encodes_xy .subn (fun _ _ => ⟨rfl, rfl⟩) rfl,
    encodes_xy .shl (fun _ _ => ⟨rfl, rfl⟩) rfl, List.forall_mem_nil _⟩

theorem encodes_of_mem_opcodeRows19to25 : ∀ r ∈ opcodeRows19to25, r.Encodes := by
  simp only [opcodeRows19to25, List.forall_mem_cons]
  exact ⟨encodes_xy .sneReg (fun _ _ => ⟨rfl, rfl⟩) rfl,
    encodes_nnn .ldI (fun _ => ⟨rfl, rfl⟩) rfl, encodes_nnn .jpV0 (fun _ => ⟨rfl, rfl⟩) rfl,
    encodes_xnn .rnd (fun _ _ => ⟨rfl, rfl⟩) rfl, encodes_xyn .drw (fun _ _ _ => ⟨rfl, rfl⟩) rfl,
    encodes_x .skp (fun _ => ⟨rfl, rfl⟩) rfl, encodes_x .sknp (fun _ => ⟨rfl, rfl⟩) rfl, List.forall_mem_nil _⟩

theorem encodes_of_mem_opcodeRows26to34 : ∀ r ∈ opcodeRows26to34, r.Encodes := by
  simp only [opcodeRows26to34, List.forall_mem_cons]
  exact ⟨encodes_x .ldVxDt (fun _ => ⟨rfl, rfl⟩) rfl, encodes_x .ldVxK (fun _ => ⟨rfl, rfl⟩) rfl,
    encodes_x .ldDtVx (fun _ => ⟨rfl, rfl⟩) rfl, encodes_x .ldStVx (fun _ => ⟨rfl, rfl⟩) rfl,
    encodes_x .addI (fun _ => ⟨rfl, rfl⟩) rfl, encodes_x .ldF (fun _ => ⟨rfl, rfl⟩) rfl,
    encodes_x .ldB (fun _ => ⟨rfl, rfl⟩) rfl, encodes_x .storeRegs (fun _ => ⟨rfl, rfl⟩) rfl,
    encodes_x .loadRegs (fun _ => ⟨rfl, rfl⟩) rfl, List.forall_mem_nil _⟩

theorem encodes_of_mem_opcodeTable : ∀ r ∈ opcodeTable, r.Encodes := by
  simp only [opcodeTable, List.forall_mem_append]
  exact ⟨⟨⟨encodes_of_mem_opcodeRows1to9, encodes_of_mem_opcodeRows10to18⟩, encodes_of_mem_opcodeRows19to25⟩,
    encodes_of_mem_opcodeRows26to34⟩

end OpcodeRow

/-- A row that a word matches decides what it decodes to (rule R108). -/
theorem decode_of_matches {r : OpcodeRow} {w : Word} (hr : r ∈ opcodeTable) (h : r.Matches w) :
    decode w = r.build w := by
  obtain ⟨hwf, hw⟩ := OpcodeRow.encodes_of_mem_opcodeTable r hr w h
  calc decode w = decode (encode (r.build w)) := by rw [hw]
    _ = r.build w := decodeOfEncodeIsIdentity _ hwf

/-- Settles O2: a word that matches a row is encoded by what the row builds, and any other word is its own encoding. -/
theorem encodeOfDecodeIsIdentity : Obligations.EncodeOfDecodeIsIdentity := by
  intro w
  by_cases hu : UnmappedWord w
  · rw [Laws.RoundTrip.decode_of_unmappedWord hu]
    exact ⟨rfl, decide_eq_true hu⟩
  · obtain ⟨r, hr, hm⟩ : ∃ r ∈ opcodeTable, r.Matches w := by simpa [UnmappedWord] using hu
    rw [decode_of_matches hr hm]
    exact (OpcodeRow.encodes_of_mem_opcodeTable r hr w hm).symm

/-- Settles O5: closed words, evaluated. -/
theorem wordsDecodeToTheirInstructions : Obligations.WordsDecodeToTheirInstructions := by
  unfold Obligations.WordsDecodeToTheirInstructions
  decide

/-! ### The fields as expressions -/

theorem toNat_and_lowMask (w : Word) {m : Word} {k : Nat} (hm : m.toNat = 2 ^ k - 1) :
    (w &&& m).toNat = w.toNat % 2 ^ k := by
  rw [BitVec.toNat_and, hm, Nat.and_two_pow_sub_one_eq_mod]

/-- A field of low bits, widened, is the word under their mask. -/
theorem setWidth_eq_and_lowMask {w m : Word} {k : Nat} {v : BitVec k} (hk : k ≤ 16) (hv : v.toNat = w.toNat % 2 ^ k)
    (hm : m.toNat = 2 ^ k - 1) : v.setWidth 16 = w &&& m := by
  apply BitVec.eq_of_toNat_eq
  rw [BitVec.toNat_setWidth_of_le hk, hv, toNat_and_lowMask w hm]

theorem toNat_and_mask_F000 (w : Word) : (w &&& 0xF000).toNat = (family w).toNat * 4096 := by
  rw [and_mask_F000, toNat_ofDigits]
  simp

theorem setWidth_family_shiftLeft (w : Word) : (family w).setWidth 16 <<< 12 = w &&& 0xF000 := by
  have hlt := (family w).isLt
  apply BitVec.eq_of_toNat_eq
  rw [BitVec.toNat_shiftLeft, BitVec.toNat_setWidth_of_le (by decide), Nat.shiftLeft_eq, toNat_and_mask_F000]
  omega

theorem toNat_shiftRight_and_F (w : Word) (k : Nat) : ((w >>> k) &&& 0xF).toNat = w.toNat / 2 ^ k % 2 ^ 4 := by
  rw [toNat_and_lowMask (k := 4) _ rfl, BitVec.toNat_ushiftRight, Nat.shiftRight_eq_div_pow]

theorem fieldNNN_eq_append (w : Word) : fieldNNN w = (BitVec.ofFin (fieldX w) : BitVec 4) ++ fieldNN w := by
  have hx : (BitVec.ofFin (fieldX w) : BitVec 4).toNat = _ := val_fieldX w
  apply BitVec.eq_of_toNat_eq
  rw [toNat_fieldNNN, toNat_append_add, hx, toNat_fieldNN]
  omega

theorem fieldNN_eq_append (w : Word) : fieldNN w = (BitVec.ofFin (fieldY w) : BitVec 4) ++ fieldN w := by
  have hy : (BitVec.ofFin (fieldY w) : BitVec 4).toNat = _ := val_fieldY w
  apply BitVec.eq_of_toNat_eq
  rw [toNat_fieldNN, toNat_append_add, hy, toNat_fieldN]
  omega

/-- Settles O3: each field and each expression as a number, and the two overlaps as digits put together. -/
theorem fieldsAreTheSourceExpressions : Obligations.FieldsAreTheSourceExpressions := fun w =>
  ⟨setWidth_family_shiftLeft w,
    (val_fieldX w).trans (toNat_shiftRight_and_F w 8).symm,
    (val_fieldY w).trans (toNat_shiftRight_and_F w 4).symm,
    setWidth_eq_and_lowMask (by decide) (toNat_fieldN w) rfl,
    setWidth_eq_and_lowMask (by decide) (toNat_fieldNN w) rfl,
    setWidth_eq_and_lowMask (by decide) (toNat_fieldNNN w) rfl,
    fieldNNN_eq_append w, fieldNN_eq_append w⟩

end Sys2Proof
end

section
/-! A step that fetches an unmapped word. -/

namespace Sys2Proof.Machine

theorem exec_unmapped (w : Word) (s : State) : exec (.unmapped w) s = .next s := rfl

/-- Settles O49: the word at pc decodes to an unmapped instruction, which leaves the state after the fetch as it is. -/
theorem unmappedWordsAreNoOps : Obligations.UnmappedWordsAreNoOps := by
  refine ⟨exec_unmapped, ?_⟩
  intro s input rest hword hrun hpending hpc hdue
  calc step s = stepCall input { s with pending := rest } := step_given hrun hpending
    _ = exec (decode (wordAt s s.pc.toNat))
          { timerPhase input { s with pending := rest } with tInstr := input.now, pc := s.pc + 2 } :=
        stepCall_of_fetch hdue (Nat.not_le.2 hpc)
    _ = .next { timerPhase input { s with pending := rest } with tInstr := input.now, pc := s.pc + 2 } := by
        rw [Laws.RoundTrip.decode_of_unmappedWord (w := wordAt s s.pc.toNat) hword, exec_unmapped]

end Sys2Proof.Machine
end

section
/-! The row of the opcode table that a word selects (rule R108). -/

namespace Sys2Proof

/-- The rows build the constructors of `Instr` in order, so an instruction names the row that built it. -/
theorem map_ctorIdx_build (w : Word) :
    opcodeTable.map (fun r => (r.build w).ctorIdx) = List.range opcodeTable.length := rfl

theorem ctorIdx_build_getElem (w : Word) {j : Nat} (hj : j < opcodeTable.length) :
    (opcodeTable[j].build w).ctorIdx = j := by
  have hrow := List.getElem_of_eq (map_ctorIdx_build w) (i := j) (by simpa using hj)
  rwa [List.getElem_map, List.getElem_range] at hrow

/-- Settles O4: a row that matches decides what the word decodes to, and that instruction names the row. -/
theorem decodeSelectsTheUniqueTableRow : Obligations.DecodeSelectsTheUniqueTableRow := by
  refine fun w => ⟨fun r hr => decode_of_matches hr, Laws.RoundTrip.decode_of_unmappedWord, ?_⟩
  intro j k hj hk hmj hmk
  calc j = (opcodeTable[j].build w).ctorIdx := (ctorIdx_build_getElem w hj).symm
    _ = (decode w).ctorIdx := by rw [decode_of_matches (List.getElem_mem hj) hmj]
    _ = (opcodeTable[k].build w).ctorIdx := by rw [decode_of_matches (List.getElem_mem hk) hmk]
    _ = k := ctorIdx_build_getElem w hk

end Sys2Proof
end

section
/-! The timer phase, and what a `Step` call does after it: nothing, a failed fetch, or the instruction at pc. -/

namespace Sys2Proof.Machine

variable {s t : State} {input : StepInput}

/-! ### The timer phase -/

/-- A clock that has not moved past `T_TIMER` ticks nothing (rule R102; D2). -/
theorem not_timerDue_of_le {now : Nat} (h : now ≤ s.tTimer) : ¬ TimerDue s now := by
  simp [TimerDue, elapsed, Nat.sub_eq_zero_of_le h]

theorem tTimer_timerPhase_of_due (h : TimerDue s input.now) : (timerPhase input s).tTimer = input.now := by
  rw [timerPhase_due h]
  rfl

theorem dt_timerPhase_of_due (h : TimerDue s input.now) : (timerPhase input s).dt = tickDown s.dt := by
  rw [timerPhase_due h]
  rfl

theorem st_timerPhase_of_due (h : TimerDue s input.now) : (timerPhase input s).st = tickDown s.st := by
  rw [timerPhase_due h]
  rfl

/-- A tick sets TONE from the ST it leaves (rule R104). -/
theorem tone_timerPhase_of_due (h : TimerDue s input.now) :
    (timerPhase input s).tone = decide ((timerPhase input s).st ≠ 0) := by
  rw [timerPhase_due h]
  show (tickDown s.st != 0) = decide (tickDown s.st ≠ 0)
  rw [bne, beq_eq_decide, decide_not]

@[simp] theorem tickDown_zero : tickDown 0 = 0 := rfl

@[simp] theorem timerPhase_pc (input : StepInput) (s : State) : (timerPhase input s).pc = s.pc := by
  rw [timerPhase_eq]

@[simp] theorem timerPhase_clearReq (input : StepInput) (s : State) : (timerPhase input s).clearReq = false := by
  rw [timerPhase_eq]

@[simp] theorem timerPhase_redrawReq (input : StepInput) (s : State) : (timerPhase input s).redrawReq = false := by
  rw [timerPhase_eq]

@[simp] theorem readByte_timerPhase (input : StepInput) (s : State) (a : Nat) :
    (timerPhase input s).readByte a = s.readByte a := by
  rw [timerPhase_eq]
  rfl

/-- Settles O9: by the timer gate; a clock behind `T_TIMER` leaves it closed. -/
theorem timerPhaseChangesOnlyTimersAndFlags : Obligations.TimerPhaseChangesOnlyTimersAndFlags := by
  refine fun s input => ⟨fun hdue => ?_, fun hclosed => ?_, fun hback => ?_⟩
  · have hphase := timerPhase_eq input s
    rwa [tTimer_timerPhase_of_due hdue, tone_timerPhase_of_due hdue] at hphase
  · exact timerPhase_not_due (Nat.not_lt.2 hclosed)
  · rw [timerPhase_not_due (not_timerDue_of_le hback)]
    exact ⟨rfl, rfl⟩

/-- Settles O8: a tick is one `tickDown` of each timer. -/
theorem timerTickDecrementsBothTimersOnce : Obligations.TimerTickDecrementsBothTimersOnce := by
  intro s input hdue
  rw [dt_timerPhase_of_due hdue, st_timerPhase_of_due hdue]
  exact ⟨fun _ => toNat_tickDown s.dt, fun h => by rw [h, tickDown_zero],
    fun _ => toNat_tickDown s.st, fun h => by rw [h, tickDown_zero]⟩

/-! ### The instruction gate and the fetch -/

theorem stepCall_of_not_due (h : ¬ InstrDue s input.now) : stepCall input s = .next (timerPhase input s) := if_neg h

theorem stepCall_of_fetchFails (hd : InstrDue s input.now) (hf : FetchFails s) :
    stepCall input s =
      .next { timerPhase input s with tInstr := input.now, run := .halted .programOutOfBounds } := by
  obtain ⟨hnd, _⟩ | ⟨_, _, heq⟩ | ⟨_, hnf, _⟩ := stepCall_cases input s
  · exact absurd hd hnd
  · exact heq
  · exact absurd hf hnf

/-- Settles O7: the call's instruction gate is closed. -/
theorem stepWithoutInstructionTick : Obligations.StepWithoutInstructionTick := by
  intro s input rest hrun hpending hclosed
  rw [step_given hrun hpending]
  exact stepCall_of_not_due (Nat.not_lt.2 hclosed)

/-- Settles O6: the given call fetches the word at pc, and a free call is the same call given. -/
theorem stepRunsTheDecodedInstruction : Obligations.StepRunsTheDecodedInstruction := by
  refine fun s i hrun => ⟨fun input rest hpending hpc hword hdue => ?_, fun hpending => ?_⟩
  · rw [step_given hrun hpending, ← hword]
    exact stepCall_of_fetch hdue (Nat.not_le.2 hpc)
  · calc step s = stepCall (freeStepInput s.draws) { s with draws := s.draws + 1 } := step_free hrun hpending
      _ = stepCall (freeStepInput s.draws) { s with pending := [], draws := s.draws + 1 } := by rw [← hpending]
      _ = step { s with pending := [.step (freeStepInput s.draws)], draws := s.draws + 1 } :=
        (step_given (s := { s with pending := [.step (freeStepInput s.draws)], draws := s.draws + 1 }) hrun rfl).symm

/-- Settles O11: the failed fetch halts the state after the timer phase, which has kept pc and memory. -/
theorem fetchOutOfBoundsHalts : Obligations.FetchOutOfBoundsHalts := by
  intro s input rest hrun hpending hdue hpc
  have hstep := (step_given hrun hpending).trans (stepCall_of_fetchFails hdue hpc)
  have hkept := timerPhase_pc input { s with pending := rest }
  exact ⟨_, hstep, rfl, hkept, congrArg some hkept, readByte_timerPhase input { s with pending := rest }⟩

/-! ### The flags of a step -/

/-- From a clear flag, an instruction sets CLEAR_REQ exactly when it is 00E0 (rule R200). -/
theorem clearReq_iff_of_exec {i : Instr} (h : exec i s = .next t) (hs : s.clearReq = false) :
    t.clearReq = true ↔ i = .cls := by
  constructor
  · intro ht
    exact (effect_of_exec h).writer_of_clearReq (by simp [hs, ht])
  · rintro rfl
    exact Host.Outcome.next.inj h ▸ rfl

/-- From a clear flag, an instruction sets REDRAW_REQ only when it is Dxyn (rule R205). -/
theorem eq_drw_of_exec_of_redrawReq {i : Instr} (h : exec i s = .next t) (hs : s.redrawReq = false)
    (ht : t.redrawReq = true) : ∃ x y n, i = .drw x y n :=
  (effect_of_exec h).writer_of_redrawReq (by simp [hs, ht])

/-- Settles O13: the timer phase clears both flags, and only an instruction that runs can set one. -/
theorem stepFlagsDescribeOnlyThatStep : Obligations.StepFlagsDescribeOnlyThatStep := by
  intro s t input rest hrun hpending h
  rw [step_given hrun hpending] at h
  have hclear := timerPhase_clearReq input { s with pending := rest }
  have hredraw := timerPhase_redrawReq input { s with pending := rest }
  obtain ⟨hd, heq⟩ | ⟨_, hf, heq⟩ | ⟨hd, hf, heq⟩ := stepCall_cases input { s with pending := rest }
  · obtain rfl := Host.Outcome.next.inj (heq.symm.trans h)
    simp only [hclear, hredraw]
    exact ⟨⟨nofun, fun ⟨hd', _⟩ => absurd hd' hd⟩, nofun⟩
  · obtain rfl := Host.Outcome.next.inj (heq.symm.trans h)
    simp only [hclear, hredraw]
    exact ⟨⟨nofun, fun ⟨_, hpc, _⟩ => absurd hf (Nat.not_le.2 hpc)⟩, nofun⟩
  · have hexec := heq.symm.trans h
    have hpc := Nat.not_le.1 hf
    exact ⟨(clearReq_iff_of_exec hexec hclear).trans ⟨fun hi => ⟨hd, hpc, hi⟩, fun ⟨_, _, hi⟩ => hi⟩,
      fun ht => ⟨hd, hpc, eq_drw_of_exec_of_redrawReq hexec hredraw ht⟩⟩

end Sys2Proof.Machine
end

section
/-! The key wait: what each answer of the host does, and the calls that have no move. -/

namespace Sys2Proof.Machine

variable {s : State} {x : Reg}

/-! ### The answers to a key wait -/

theorem keyCall_pressed_of_lt {k : Nat} (hk : k < 16) :
    keyCall x (.pressed k) s = .next { s.setV x (BitVec.ofNat 8 k) with run := .running } := if_pos hk

theorem keyCall_pressed_of_le {k : Nat} (hk : 16 ≤ k) : keyCall x (.pressed k) s = .refused .keyOutOfRange :=
  if_neg (Nat.not_lt.2 hk)

theorem keyCall_cancelled : keyCall x .cancelled s = .next (raiseFatal .keyWaitCancelled s) := rfl

theorem freeKeyAnswer_cases (draw : Nat) :
    (∃ k, k < 16 ∧ freeKeyAnswer draw = .pressed k) ∨ freeKeyAnswer draw = .cancelled := by
  unfold freeKeyAnswer
  cases Config.freeKeyEvent draw with
  | some k => exact .inl ⟨k.val, k.isLt, rfl⟩
  | none => exact .inr rfl

/-- A key's number fits in a register. -/
theorem toNat_ofNat_key {k : Nat} (hk : k < 16) : (BitVec.ofNat 8 k).toNat = k :=
  Nat.mod_eq_of_lt (hk.trans (by decide))

/-- Settles O15: the answer writes Vx and RUN alone, so the flags of the blocked step are still there to return. -/
theorem keyPressCompletesTheWait : Obligations.KeyPressCompletesTheWait := by
  intro s x k rest hrun hpending hk
  have hstep := (step_key_given hrun hpending).trans (keyCall_pressed_of_lt hk)
  refine ⟨_, hstep, ?_, fun r hr => ?_, rfl, fun _ => rfl, rfl⟩
  · exact (congrArg BitVec.toNat (State.getV_setV_self _ x _)).trans (toNat_ofNat_key hk)
  · exact State.getV_setV_ne _ hr.symm _

/-- Settles O16: the call is answered by the fatal condition. -/
theorem cancelledKeyWaitHalts : Obligations.CancelledKeyWaitHalts := by
  intro s x rest hrun hpending
  rw [step_key_given hrun hpending, keyCall_cancelled]
  rfl

/-- Settles O17: by the two kinds of free answer. -/
theorem freeKeyAnswerIsAKeyOrACancellation : Obligations.FreeKeyAnswerIsAKeyOrACancellation := by
  intro s x hrun hpending
  rw [step_key_free hrun hpending]
  obtain ⟨k, hk, hanswer⟩ | hanswer := freeKeyAnswer_cases s.draws
  · rw [hanswer, keyCall_pressed_of_lt hk]
    refine ⟨_, rfl, .inl ⟨rfl, ?_⟩⟩
    rw [← toNat_ofNat_key hk] at hk
    exact (congrArg BitVec.toNat (State.getV_setV_self _ x _)).trans_lt hk
  · rw [hanswer, keyCall_cancelled]
    exact ⟨_, rfl, .inr ⟨rfl, rfl⟩⟩

/-! ### What a wait keeps -/

theorem exists_of_sameButCalls {s s' : State} (h : SameButCalls s s') :
    ∃ pending draws, s' = { s with pending := pending, draws := draws } := ⟨_, _, h⟩

/-- Settles O18: only the two key events start in a wait, and a press stores to the awaited register. -/
theorem timersAndFrameFreezeDuringKeyWait : Obligations.TimersAndFrameFreezeDuringKeyWait := by
  intro s t x hwait h
  cases transition_of_step h with
  | timersOnly hr | fetchFails hr | instr hr => cases hwait.symm.trans hr
  | keyPressed hr hs =>
    obtain rfl := RunState.awaitKey.inj (hwait.symm.trans hr)
    obtain ⟨_, _, rfl⟩ := exists_of_sameButCalls hs
    exact ⟨rfl, fun r hne => State.getV_setV_ne _ hne.symm _, fun _ => rfl⟩
  | keyCancelled _ hs =>
    obtain ⟨_, _, rfl⟩ := exists_of_sameButCalls hs
    exact ⟨rfl, fun _ _ => rfl, fun _ => rfl⟩

/-! ### Calls with no move -/

theorem step_given_of_awaitKey {input : StepInput} {rest : List HostCall} (hr : s.run = .awaitKey x)
    (hp : s.pending = .step input :: rest) : step s = .refused .stepWhileAwaitingKey := by
  simp [step, hostStep, hr, hp]

theorem step_key_given_of_running {e : KeyEvent} {rest : List HostCall} (hr : s.run = .running)
    (hp : s.pending = .keyEvent e :: rest) : step s = .refused .keyEventWhileRunning := by
  simp [step, hostStep, hr, hp]

/-- Settles O19: the two calls that RUN does not enable, and the answer that the key wait refuses. -/
theorem callsThatAreNotEnabledHaveNoMove : Obligations.CallsThatAreNotEnabledHaveNoMove :=
  ⟨fun _ _ _ _ => step_given_of_awaitKey, fun _ _ _ => step_key_given_of_running,
    fun _ _ _ _ hrun hpending hk => (step_key_given hrun hpending).trans (keyCall_pressed_of_le hk)⟩

end Sys2Proof.Machine
end

section
/-! Control flow: return, jumps, call and skips, each as the update of pc and of the call stack that it makes. -/

namespace Sys2Proof.Machine

variable {s : State}

/-! ### The rows of the opcode table -/

/-- A row of the opcode table, the first being row 0, gives what its words decode to (rule R108). -/
theorem encodedBy_opcodeTable_getElem (j : Nat) (hj : j < opcodeTable.length) :
    EncodedBy opcodeTable[j].pattern opcodeTable[j].mask opcodeTable[j].build := fun _ h =>
  decode_of_matches (List.getElem_mem hj) h

/-! ### Addresses -/

theorem toNat_address (nnn : BitVec 12) : (address nnn).toNat = nnn.toNat :=
  BitVec.toNat_setWidth_of_le (by decide)

theorem toNat_widen (b : Byte) : (widen b).toNat = b.toNat := BitVec.toNat_setWidth_of_le (by decide)

/-- The unmasked sum of Bnnn never wraps: it is at most 0x10FE (rules R29, R138). -/
theorem toNat_address_add_widen (nnn : BitVec 12) (b : Byte) : (address nnn + widen b).toNat = nnn.toNat + b.toNat := by
  rw [BitVec.toNat_add_of_lt, toNat_address, toNat_widen]
  rw [toNat_address, toNat_widen]
  omega

/-! ### pc -/

theorem onlyPcChanges_setPc (s : State) (p : Word) : OnlyPcChanges s (s.setPc p) := ⟨rfl, fun _ => rfl, fun _ => rfl⟩

theorem onlyPcChanges_skipIf (s : State) (c : Bool) : OnlyPcChanges s (State.skipIf c s) := by
  rw [State.skipIf_eq]
  exact onlyPcChanges_setPc s _

/-- An instruction that skips when two bytes are equal. -/
theorem exec_skipIf_beq {i : Instr} {a b : Byte} (h : exec i s = .next (State.skipIf (a == b) s)) :
    ∃ t, exec i s = .next t ∧ t.pc = (if a = b then s.pc + 2 else s.pc) ∧ OnlyPcChanges s t :=
  ⟨_, h, by simp [State.skipIf_eq], onlyPcChanges_skipIf s _⟩

/-- An instruction that skips when two bytes differ. -/
theorem exec_skipIf_bne {i : Instr} {a b : Byte} (h : exec i s = .next (State.skipIf (a != b) s)) :
    ∃ t, exec i s = .next t ∧ t.pc = (if a = b then s.pc else s.pc + 2) ∧ OnlyPcChanges s t :=
  ⟨_, h, by simp [State.skipIf_eq], onlyPcChanges_skipIf s _⟩

/-! ### The call stack -/

namespace State

theorem stackTop_eq_getElem (h : s.sp < s.stack.length) : s.stackTop = s.stack[s.sp] := List.getD_eq_getElem _ _ h

/-- What is pushed is at the top, when its slot lies in the array. -/
theorem stackTop_push (h : s.sp + 1 < s.stack.length) (w : Word) : (s.push w).stackTop = w := by
  rw [stackTop_eq_getElem (by simpa using h)]
  exact List.getElem_set_self _

theorem stackTop_congr {t : State} (hstack : t.stack = s.stack) (hsp : t.sp = s.sp) : t.stackTop = s.stackTop := by
  rw [stackTop, stackTop, hstack, hsp]

end State

theorem exec_ret_of_sp_eq_zero (h : s.sp = 0) : exec .ret s = .next (raiseFatal .stackUnderflow s) := if_pos h

theorem exec_ret_of_sp_pos (h : 0 < s.sp) : exec .ret s = .next { s with pc := s.stackTop, sp := s.sp - 1 } :=
  if_neg (Nat.ne_of_gt h)

theorem exec_call_of_full (nnn : BitVec 12) (h : s.cfg.stackSize ≤ s.sp + 1) :
    exec (.call nnn) s = .next (raiseFatal .stackOverflow s) := if_pos h

theorem exec_call_of_free (nnn : BitVec 12) (h : s.sp + 1 < s.cfg.stackSize) :
    exec (.call nnn) s = .next ((s.push s.pc).setPc (address nnn)) := if_neg (Nat.not_le.2 h)

/-! ### Settled: control flow -/

/-- Settles O23: the return pops what the call pushed, since the subroutine has kept the stack. -/
theorem returnUndoesCall : Obligations.ReturnUndoesCall := by
  intro nnn s hlen hfree
  refine ⟨_, exec_call_of_free nnn hfree, fun u hstack hsp => ?_⟩
  have hsp : u.sp = s.sp + 1 := hsp
  have htop : u.stackTop = s.pc := calc
    u.stackTop = (s.push s.pc).stackTop := State.stackTop_congr hstack hsp
    _ = s.pc := State.stackTop_push (hlen ▸ hfree) s.pc
  rw [exec_ret_of_sp_pos (by omega), htop, hsp, Nat.add_sub_cancel]

/-- Settles O20: by whether the stack is empty. -/
theorem returnPopsTheReturnAddress : Obligations.ReturnPopsTheReturnAddress := by
  refine ⟨encodedBy_opcodeTable_getElem 1 (by decide), fun s => ⟨fun hlt hpos => ?_, exec_ret_of_sp_eq_zero⟩⟩
  rw [exec_ret_of_sp_pos hpos, State.stackTop_eq_getElem hlt]
  exact ⟨_, rfl, rfl, fun _ => rfl⟩

/-- Settles O21: the target is nnn, widened. -/
theorem jumpSetsPc : Obligations.JumpSetsPc :=
  ⟨encodedBy_opcodeTable_getElem 2 (by decide), fun nnn s => ⟨_, rfl, toNat_address nnn, onlyPcChanges_setPc s _⟩⟩

/-- Settles O22: by whether the next slot lies in the stack. -/
theorem callPushesTheReturnAddress : Obligations.CallPushesTheReturnAddress := by
  refine ⟨encodedBy_opcodeTable_getElem 3 (by decide), fun nnn s hlen => ⟨fun hfree => ?_, fun hfull => ?_⟩⟩
  · have hslot : s.sp + 1 < s.stack.length := hlen ▸ hfree
    exact ⟨_, exec_call_of_free nnn hfree, rfl, List.length_set.trans hlen, List.getElem?_set_self hslot,
      fun k hk => List.getElem?_set_ne hk.symm, toNat_address nnn, rfl, fun _ => rfl⟩
  · exact exec_call_of_full nnn hfull.ge

/-- Settles O24: 3xnn skips on equal bytes, 4xnn on different ones. -/
theorem skipsOnImmediate : Obligations.SkipsOnImmediate :=
  ⟨encodedBy_opcodeTable_getElem 4 (by decide), encodedBy_opcodeTable_getElem 5 (by decide), fun _ _ _ =>
    ⟨exec_skipIf_beq rfl, exec_skipIf_bne rfl⟩⟩

/-- Settles O25: 5xy0 skips on equal bytes, 9xy0 on different ones. -/
theorem skipsOnRegisters : Obligations.SkipsOnRegisters :=
  ⟨encodedBy_opcodeTable_getElem 6 (by decide), encodedBy_opcodeTable_getElem 18 (by decide), fun _ _ _ =>
    ⟨exec_skipIf_beq rfl, exec_skipIf_bne rfl⟩⟩

/-- Settles O26: the target is the exact sum. -/
theorem jumpWithOffsetAddsV0 : Obligations.JumpWithOffsetAddsV0 :=
  ⟨encodedBy_opcodeTable_getElem 20 (by decide), fun nnn s =>
    ⟨_, rfl, toNat_address_add_widen nnn (s.getV 0), onlyPcChanges_setPc s _⟩⟩

end Sys2Proof.Machine
end

section
/-! Registers, arithmetic and logic: a register write, and a result with its flag, as numbers and as frames. -/

namespace Sys2Proof.Machine

/-! ### Frames -/

theorem onlyRegsChange_setV (s : State) (x : Reg) (w : Byte) : OnlyRegsChange [x] s (s.setV x w) :=
  ⟨rfl, fun _ hr => State.getV_setV_ne s (ne_of_mem_of_not_mem List.mem_cons_self hr) w, fun _ => rfl⟩

theorem onlyRegsChange_writeWithFlag (x : Reg) (a b : Byte) (s : State) :
    OnlyRegsChange [x, vf] s (writeWithFlag x a b s) := by
  refine ⟨writeWithFlag_eq x a b s, fun r hr => ?_, readByte_writeWithFlag x a b s⟩
  obtain ⟨hrx, hrf⟩ : r ≠ x ∧ r ≠ vf := by simpa using hr
  exact getV_writeWithFlag_other hrx hrf a b s

theorem OnlyRegsChange.mono {rs rs' : List Reg} {s t : State} (h : OnlyRegsChange rs s t) (hsub : rs ⊆ rs') :
    OnlyRegsChange rs' s t := by
  obtain ⟨heq, hregs, hmem⟩ := h
  exact ⟨heq, fun r hr => hregs r fun hin => hr (hsub hin), hmem⟩

/-! ### A result with its flag -/

theorem getV_writeWithFlag_dest {x : Reg} (hx : x ≠ vf) (a b : Byte) (s : State) :
    (writeWithFlag x a b s).getV x = a := by
  rw [getV_writeWithFlag hx, if_pos rfl]

theorem getV_writeWithFlag_flag {x : Reg} (hx : x ≠ vf) (a b : Byte) (s : State) :
    (writeWithFlag x a b s).getV vf = b := by
  rw [getV_writeWithFlag hx, if_neg hx.symm, if_pos rfl]

/-- An instruction whose result goes to VF: the configuration says whether the result or the flag is kept (D15). -/
theorem exec_writeWithFlag_vf {s : State} {i : Instr} {a b : Byte} {result flag : Nat}
    (h : exec i s = .next (writeWithFlag vf a b s)) (ha : a.toNat = result) (hb : b.toNat = flag) :
    ∃ t, exec i s = .next t ∧ OnlyRegsChange [vf] s t ∧
      (s.cfg.vfDestOrder = .resultWins → (t.getV vf).toNat = result) ∧
      (s.cfg.vfDestOrder = .flagWins → (t.getV vf).toNat = flag) := by
  refine ⟨_, h, (onlyRegsChange_writeWithFlag vf a b s).mono (by simp), fun hresult => ?_, fun hflag => ?_⟩
  · simpa [getV_writeWithFlag_vf, hresult] using ha
  · simpa [getV_writeWithFlag_vf, hflag] using hb

/-! ### Results as numbers -/

theorem toNat_sub_byte (a b : Byte) : (a - b).toNat = (256 + a.toNat - b.toNat) % 256 := by
  have hb := b.isLt
  rw [BitVec.toNat_sub]
  omega

theorem toNat_sub_byte_int (a b : Byte) : ((a - b).toNat : Int) = ((a.toNat : Int) - b.toNat) % 256 := by
  have hb := b.isLt
  rw [toNat_sub_byte]
  omega

theorem toNat_ushiftRight_one (a : Byte) : (a >>> 1).toNat = a.toNat / 2 := by
  rw [BitVec.toNat_ushiftRight, Nat.shiftRight_eq_div_pow]

theorem toNat_shiftLeft_one (a : Byte) : (a <<< 1).toNat = a.toNat * 2 % 256 := by
  rw [BitVec.toNat_shiftLeft, Nat.shiftLeft_eq]

/-! ### Flags as numbers -/

theorem flagByte_decide (p : Prop) [Decidable p] : flagByte (decide p) = if p then 1 else 0 := by
  simp [flagByte]

theorem toNat_flagByte (c : Bool) : (flagByte c).toNat = c.toNat := by cases c <;> rfl

theorem toNat_flagByte_decide (p : Prop) [Decidable p] : (flagByte (decide p)).toNat = if p then 1 else 0 := by
  rw [flagByte_decide]
  split <;> rfl

theorem carryOf_eq (a b : Byte) : carryOf a b = if 255 < a.toNat + b.toNat then 1 else 0 := flagByte_decide _

theorem greaterFlag_eq (a b : Byte) : greaterFlag a b = if b.toNat < a.toNat then 1 else 0 := flagByte_decide _

theorem toNat_bitFlag (a : Byte) (k : Nat) : (bitFlag a k).toNat = a.toNat / 2 ^ k % 2 :=
  (toNat_flagByte _).trans (Nat.toNat_testBit _ _)

theorem toNat_bitFlag_zero (a : Byte) : (bitFlag a 0).toNat = a.toNat % 2 := by
  simpa using toNat_bitFlag a 0

/-- The top bit needs no remainder: it is the whole of the byte above the other seven. -/
theorem toNat_bitFlag_seven (a : Byte) : (bitFlag a 7).toNat = a.toNat / 128 := by
  have ha := a.isLt
  rw [toNat_bitFlag]
  omega

/-! ### Settled: registers, arithmetic and logic -/

/-- Settles O33: each of the five writes its result and its flag to VF, both from the operands before it. -/
theorem addSubtractShiftIntoVF : Obligations.AddSubtractShiftIntoVF := by
  rintro y s _ _ rfl rfl i result flag hmem
  simp only [List.mem_cons, Prod.mk.injEq, List.not_mem_nil, or_false] at hmem
  obtain ⟨rfl, rfl, rfl⟩ | ⟨rfl, rfl, rfl⟩ | ⟨rfl, rfl, rfl⟩ | ⟨rfl, rfl, rfl⟩ | ⟨rfl, rfl, rfl⟩ := hmem
  · exact exec_writeWithFlag_vf rfl (BitVec.toNat_add _ _) (toNat_flagByte_decide _)
  · exact exec_writeWithFlag_vf rfl (toNat_sub_byte _ _) (toNat_flagByte_decide _)
  · exact exec_writeWithFlag_vf rfl (toNat_ushiftRight_one _) (toNat_bitFlag_zero _)
  · exact exec_writeWithFlag_vf rfl (toNat_sub_byte _ _) (toNat_flagByte_decide _)
  · exact exec_writeWithFlag_vf rfl (toNat_shiftLeft_one _) (toNat_bitFlag_seven _)

/-- Settles O28: 7xnn adds as bytes do, modulo 256. -/
theorem immediateLoadAndAdd : Obligations.ImmediateLoadAndAdd := by
  refine ⟨encodedBy_opcodeTable_getElem 7 (by decide), encodedBy_opcodeTable_getElem 8 (by decide), fun x nn s =>
    ⟨⟨_, rfl, State.getV_setV_self s x nn, onlyRegsChange_setV s x _⟩, ⟨_, rfl, ?_, onlyRegsChange_setV s x _⟩⟩⟩
  rw [State.getV_setV_self, BitVec.toNat_add]

/-- Settles O29: each writes Vx alone, and the bit operations act on each bit. -/
theorem copyAndLogic : Obligations.CopyAndLogic := by
  refine ⟨encodedBy_opcodeTable_getElem 9 (by decide), encodedBy_opcodeTable_getElem 10 (by decide),
    encodedBy_opcodeTable_getElem 11 (by decide), encodedBy_opcodeTable_getElem 12 (by decide), fun x y s =>
    ⟨⟨_, rfl, State.getV_setV_self s x _, onlyRegsChange_setV s x _⟩,
      ⟨_, rfl, onlyRegsChange_setV s x _, fun b => ?_⟩, ⟨_, rfl, onlyRegsChange_setV s x _, fun b => ?_⟩,
      ⟨_, rfl, onlyRegsChange_setV s x _, fun b => ?_⟩⟩⟩
  · rw [State.getV_setV_self, BitVec.getLsbD_or]
  · rw [State.getV_setV_self, BitVec.getLsbD_and]
  · rw [State.getV_setV_self, BitVec.getLsbD_xor]

/-- Settles O30: the sum and the carry each arrive. -/
theorem addSetsCarry : Obligations.AddSetsCarry := by
  refine ⟨encodedBy_opcodeTable_getElem 13 (by decide), fun x y s hx =>
    ⟨_, rfl, ?_, ?_, onlyRegsChange_writeWithFlag x _ _ s⟩⟩
  · rw [getV_writeWithFlag_dest hx, BitVec.toNat_add]
  · rw [getV_writeWithFlag_flag hx, carryOf_eq]

/-- Settles O31: 8xy7 is 8xy5 with the operands exchanged. -/
theorem subtractionsSetStrictGreaterFlag : Obligations.SubtractionsSetStrictGreaterFlag := by
  refine ⟨encodedBy_opcodeTable_getElem 14 (by decide), encodedBy_opcodeTable_getElem 16 (by decide), fun x y s hx =>
    ⟨⟨_, rfl, ?_, ?_, onlyRegsChange_writeWithFlag x _ _ s⟩, ⟨_, rfl, ?_, ?_, onlyRegsChange_writeWithFlag x _ _ s⟩⟩⟩
  · rw [getV_writeWithFlag_dest hx, toNat_sub_byte_int]
  · rw [getV_writeWithFlag_flag hx, greaterFlag_eq]
  · rw [getV_writeWithFlag_dest hx, toNat_sub_byte_int]
  · rw [getV_writeWithFlag_flag hx, greaterFlag_eq]

/-- Settles O32: the bits shifted out are bit 0 and bit 7. -/
theorem shiftsSetTheBitShiftedOut : Obligations.ShiftsSetTheBitShiftedOut := by
  refine ⟨encodedBy_opcodeTable_getElem 15 (by decide), encodedBy_opcodeTable_getElem 17 (by decide), fun x y s hx =>
    ⟨⟨_, rfl, ?_, ?_, onlyRegsChange_writeWithFlag x _ _ s⟩, ⟨_, rfl, ?_, ?_, onlyRegsChange_writeWithFlag x _ _ s⟩⟩⟩
  · rw [getV_writeWithFlag_dest hx, toNat_ushiftRight_one]
  · rw [getV_writeWithFlag_flag hx, toNat_bitFlag_zero]
  · rw [getV_writeWithFlag_dest hx, toNat_shiftLeft_one]
  · rw [getV_writeWithFlag_flag hx, toNat_bitFlag_seven]

/-- Settles O34: the byte written is the AND with the input latched for the step. -/
theorem randomByteIsMasked : Obligations.RandomByteIsMasked := by
  refine ⟨encodedBy_opcodeTable_getElem 21 (by decide), fun x nn s =>
    ⟨_, rfl, onlyRegsChange_setV s x _, fun b => ?_⟩⟩
  rw [State.getV_setV_self, BitVec.getLsbD_and]

end Sys2Proof.Machine
end

section
/-! The index register, the memory transfers inside memory, and an access outside it under `Fatal`. -/

namespace Sys2Proof.Machine

variable {s u : State} {x y : Reg}

/-! ### The index register -/

theorem onlyIndexChanges_setIndex (s : State) (w : Word) : OnlyIndexChanges s { s with i := w } :=
  ⟨rfl, fun _ => rfl, fun _ => rfl⟩

theorem toNat_add_widen (w : Word) (b : Byte) : (w + widen b).toNat = (w.toNat + b.toNat) % 65536 := by
  rw [BitVec.toNat_add, toNat_widen]

/-- Five times a byte is at most 1275, so Fx29's product never wraps (rule R182). -/
theorem toNat_widen_mul_five (b : Byte) : (widen b * 5).toNat = b.toNat * 5 := by
  have hb := b.isLt
  have hfive : (5 : Word).toNat = 5 := rfl
  rw [BitVec.toNat_mul, toNat_widen, hfive]
  omega

/-! ### Addresses and range checks -/

/-- An access whose highest address is inside memory reaches the addresses themselves (rule R183). -/
theorem addr_add_of_inside {a h k : Nat} (hin : a + h < 4096) (hk : k ≤ h) : State.addr (a + k) = a + k :=
  State.addr_of_lt (Nat.lt_of_le_of_lt (Nat.add_le_add_left hk a) hin)

/-- Storing `h + 1` bytes inside memory changes only the bytes from the first address to the highest. -/
theorem onlyBytesChange_storeBytes_of_inside {a h : Nat} {ws : List Byte} (hwf : s.mem.wf s.cfg.font)
    (hin : a + h < 4096) (hlen : ws.length = h + 1) :
    OnlyBytesChange (fun b => a ≤ b ∧ b ≤ a + h) s (s.storeBytes a ws) := by
  refine onlyBytesChange_storeBytes hwf fun k hk => ?_
  have hkh : k ≤ h := by omega
  rw [addr_add_of_inside hin hkh]
  exact ⟨Nat.le_add_right a k, Nat.add_le_add_left hkh a⟩

theorem rangeFails_of_le {h : Nat} (hfatal : s.cfg.memOobPolicy = .fatal) (hle : 4096 ≤ s.i.toNat + h) :
    RangeFails s h := ⟨hle, hfatal⟩

theorem rangeFails_congr (hi : u.i = s.i) (hcfg : u.cfg = s.cfg) (h : Nat) : RangeFails u h ↔ RangeFails s h := by
  rw [RangeFails, RangeFails, hi, hcfg]

theorem readByte_congr (hmem : u.mem = s.mem) (hcfg : u.cfg = s.cfg) (a : Nat) : u.readByte a = s.readByte a := by
  rw [State.readByte, State.readByte, hmem, hcfg]

theorem exec_ldB_of_rangeFails (h : RangeFails s 2) : exec (.ldB x) s = .next (raiseFatal .memoryOutOfBounds s) :=
  if_pos h

theorem exec_storeRegs_of_rangeFails (h : RangeFails s x.val) :
    exec (.storeRegs x) s = .next (raiseFatal .memoryOutOfBounds s) := if_pos h

theorem exec_loadRegs_of_rangeFails (h : RangeFails s x.val) :
    exec (.loadRegs x) s = .next (raiseFatal .memoryOutOfBounds s) := if_pos h

/-- A row r that falls on the screen is among the rows whose bytes Dxyn's range check covers (rules R201, R203). -/
theorem exec_drw_of_rangeFails {n : BitVec 4} {r : Nat} (hr : r < n.toNat)
    (hrow : (s.getV y).toNat % s.cfg.fbH + r < s.cfg.fbH) (h : RangeFails s r) :
    exec (.drw x y n) s = .next (raiseFatal .memoryOutOfBounds s) := by
  obtain ⟨hle, hfatal⟩ := h
  have hrows : r < spriteRows s.cfg (spriteY s.cfg (s.getV y)) n := by
    simp only [spriteRows, spriteY]
    omega
  exact if_pos ⟨by omega, by omega, hfatal⟩

/-! ### Settled: the index register and the memory transfers -/

/-- Settles O36: inside memory `Addr` is the address itself, and the digits of a byte rebuild it. -/
theorem bcdDigitsAreStored : Obligations.BcdDigitsAreStored := by
  refine ⟨encodedBy_opcodeTable_getElem 31 (by decide), fun x s hwf hin =>
    ⟨_, exec_ldB_of_inRange (not_rangeFails_of_lt hin), ?_⟩⟩
  have haddr {k : Nat} (hk : k ≤ 2) : State.addr (s.i.toNat + k) = s.i.toNat + k := addr_add_of_inside hin hk
  have hbase : State.addr s.i.toNat = s.i.toNat := haddr (Nat.zero_le 2)
  obtain ⟨hundreds, tens, ones⟩ := toNat_readByte_storeBytes_bcdDigits hwf s.i.toNat (s.getV x)
  rw [hbase] at hundreds
  rw [haddr one_le_two] at tens
  rw [haddr le_rfl] at ones
  exact ⟨hundreds, tens, ones, by omega, onlyBytesChange_storeBytes_of_inside hwf hin rfl⟩

/-- Settles O37: inside memory `Addr` is the address itself. -/
theorem registersAreStored : Obligations.RegistersAreStored := by
  refine ⟨encodedBy_opcodeTable_getElem 32 (by decide), fun x s hwf hin =>
    ⟨_, exec_storeRegs_of_inRange (not_rangeFails_of_lt hin), fun k hk => ?_,
      onlyBytesChange_storeBytes_of_inside hwf hin (length_regBytes s x)⟩⟩
  have haddr := addr_add_of_inside hin (Fin.le_def.1 hk)
  exact haddr ▸ readByte_storeBytes_regBytes hwf s.i.toNat hk

/-- Settles O38: inside memory `Addr` is the address itself. -/
theorem registersAreLoaded : Obligations.RegistersAreLoaded := by
  refine ⟨encodedBy_opcodeTable_getElem 33 (by decide), fun x s hin =>
    ⟨_, exec_loadRegs_of_inRange (not_rangeFails_of_lt hin), fun k hk => ?_, fun k hk => ?_,
      State.loadFrom_eq _ _ s, State.readByte_loadFrom _ _ s⟩⟩
  · rw [getV_loadFrom_regsUpTo, if_pos hk, addr_add_of_inside hin (Fin.le_def.1 hk)]
  · rw [getV_loadFrom_regsUpTo, if_neg (not_le.2 hk)]

/-- Settles O40: each of the four fails its range check, and the fatal condition changes RUN alone. -/
theorem outOfRangeAccessHalts : Obligations.OutOfRangeAccessHalts := by
  intro s x y n hfatal
  refine ⟨fun hle => exec_ldB_of_rangeFails (rangeFails_of_le hfatal hle), fun hle => ?_, fun r hr hrow hle =>
    exec_drw_of_rangeFails hr hrow (rangeFails_of_le hfatal hle)⟩
  have hrange := rangeFails_of_le hfatal hle
  exact ⟨exec_storeRegs_of_rangeFails hrange, exec_loadRegs_of_rangeFails hrange⟩

/-- Settles O41: the load passes the range check that the store passed, and reads each register's byte at the address the
store gave it. -/
theorem loadAfterStoreRestoresRegisters : Obligations.LoadAfterStoreRestoresRegisters := by
  intro x s hwf haccess
  have hstore : ¬ RangeFails s x.val :=
    haccess.elim not_rangeFails_of_lt fun hwrap => not_rangeFails_of_wrap hwrap x.val
  refine ⟨_, exec_storeRegs_of_inRange hstore, fun u hmem hi hcfg => ?_⟩
  have hi' : u.i = s.i := by rw [hi, State.storeBytes_eq]
  have hcfg' : u.cfg = s.cfg := by rw [hcfg, State.storeBytes_cfg]
  have hload : ¬ RangeFails u x.val := (rangeFails_congr hi' hcfg' x.val).not.2 hstore
  refine ⟨_, exec_loadRegs_of_inRange hload, fun k hk => ?_, fun k hk => ?_⟩
  · rw [getV_loadFrom_regsUpTo, if_pos hk, readByte_congr hmem hcfg, hi', readByte_storeBytes_regBytes hwf _ hk]
  · rw [getV_loadFrom_regsUpTo, if_neg (not_le.2 hk)]

/-- Settles O35: the three new values of `I`, as numbers. -/
theorem indexIsSetAddedAndPointedAtGlyphs : Obligations.IndexIsSetAddedAndPointedAtGlyphs :=
  ⟨encodedBy_opcodeTable_getElem 19 (by decide), encodedBy_opcodeTable_getElem 29 (by decide),
    encodedBy_opcodeTable_getElem 30 (by decide),
    fun nnn s => ⟨_, rfl, toNat_address nnn, onlyIndexChanges_setIndex s _⟩,
    fun x s => ⟨⟨_, rfl, toNat_add_widen s.i (s.getV x), onlyIndexChanges_setIndex s _⟩,
      ⟨_, rfl, toNat_widen_mul_five (s.getV x), onlyIndexChanges_setIndex s _⟩⟩⟩

end Sys2Proof.Machine
end

section
/-! Clearing and drawing: Dxyn as the toggling of the screen cells at its sprite's set bits, and its collision flag. -/

namespace Sys2Proof.Machine

variable {s : State} {x y : Reg} {n : BitVec 4} {col row : Nat}

/-! ### One draw -/

/-- The cells that Dxyn hits (rules R201 to R203). -/
def hitCells (x y : Reg) (n : BitVec 4) (s : State) : List Nat :=
  spriteCells s (spriteX s.cfg (s.getV x)) (spriteY s.cfg (s.getV y))
    (spriteRows s.cfg (spriteY s.cfg (s.getV y)) n)

/-- The state after a Dxyn that passes its range check. -/
def afterDraw (x y : Reg) (n : BitVec 4) (s : State) : State :=
  drawSprite (spriteX s.cfg (s.getV x)) (spriteY s.cfg (s.getV y)) (spriteRows s.cfg (spriteY s.cfg (s.getV y)) n) s

theorem exec_drw_of_readable (hread : spriteReadable s y n) : exec (.drw x y n) s = .next (afterDraw x y n s) :=
  execDrw_of_readable hread

@[simp] theorem afterDraw_cfg (x y : Reg) (n : BitVec 4) (s : State) : (afterDraw x y n s).cfg = s.cfg := rfl
@[simp] theorem afterDraw_i (x y : Reg) (n : BitVec 4) (s : State) : (afterDraw x y n s).i = s.i := rfl
@[simp] theorem afterDraw_redrawReq (x y : Reg) (n : BitVec 4) (s : State) :
    (afterDraw x y n s).redrawReq = true := rfl
@[simp] theorem afterDraw_fb (x y : Reg) (n : BitVec 4) (s : State) :
    (afterDraw x y n s).fb = (s.fb.xorCells (hitCells x y n s)).1 := rfl
@[simp] theorem readByte_afterDraw (x y : Reg) (n : BitVec 4) (s : State) (a : Nat) :
    (afterDraw x y n s).readByte a = s.readByte a := rfl

theorem afterDraw_eq (x y : Reg) (n : BitVec 4) (s : State) :
    afterDraw x y n s = { s with v := (afterDraw x y n s).v, fb := (afterDraw x y n s).fb, redrawReq := true } := rfl

theorem getV_afterDraw_other {r : Reg} (hr : r ≠ vf) (x y : Reg) (n : BitVec 4) (s : State) :
    (afterDraw x y n s).getV r = s.getV r :=
  (getV_drawSprite s _ _ _ r).trans (if_neg hr)

theorem getV_afterDraw_vf (x y : Reg) (n : BitVec 4) (s : State) :
    (afterDraw x y n s).getV vf = flagByte (s.fb.xorCells (hitCells x y n s)).2 :=
  (getV_drawSprite s _ _ _ vf).trans (if_pos rfl)

/-- No cell is hit twice. -/
theorem hitCells_nodup (x y : Reg) (n : BitVec 4) (s : State) : (hitCells x y n s).Nodup :=
  spriteCells_nodup s _ _ _

/-- Every cell hit is a screen cell where the sprite has a set bit. -/
theorem exists_spriteBit_of_mem_hitCells {c : Nat} (hc : c ∈ hitCells x y n s) :
    ∃ col row, col < s.cfg.fbW ∧ row < s.cfg.fbH ∧ spriteBit s x y n col row = true ∧ c = row * s.cfg.fbW + col := by
  obtain ⟨r, b, hr, -, hcol, -, rfl⟩ := mem_spriteCells.1 hc
  have hrow : spriteY s.cfg (s.getV y) + r < s.cfg.fbH := by
    simp only [spriteRows] at hr
    omega
  exact ⟨_, _, hcol, hrow, (spriteBit_iff hcol hrow).2 hc, rfl⟩

/-- A draw turns over exactly the screen cells where the sprite has a set bit. -/
theorem cellLit_afterDraw (hfb : s.fb.Pairwise (· < ·)) (hcol : col < s.cfg.fbW) (hrow : row < s.cfg.fbH) :
    (afterDraw x y n s).cellLit col row = (s.cellLit col row ^^ spriteBit s x y n col row) := by
  have hbit : spriteBit s x y n col row = decide (row * s.cfg.fbW + col ∈ hitCells x y n s) :=
    Bool.eq_iff_iff.2 ((spriteBit_iff hcol hrow).trans decide_eq_true_iff.symm)
  rw [hbit]
  exact Framebuffer.lit_xorCells _ hfb (hitCells_nodup x y n s) _

/-! ### The collision flag -/

theorem flagByte_eq_one_iff (b : Bool) : flagByte b = 1 ↔ b = true := by cases b <;> decide

theorem flagByte_eq_one_or_zero (b : Bool) : flagByte b = 1 ∨ flagByte b = 0 := by cases b <;> decide

theorem getV_afterDraw_vf_eq_one_or_zero (x y : Reg) (n : BitVec 4) (s : State) :
    (afterDraw x y n s).getV vf = 1 ∨ (afterDraw x y n s).getV vf = 0 := by
  rw [getV_afterDraw_vf]
  exact flagByte_eq_one_or_zero _

/-- VF is 1 after a draw exactly when a screen cell at a set bit was lit (rule R204). -/
theorem getV_afterDraw_vf_eq_one_iff (hfb : s.fb.Pairwise (· < ·)) :
    (afterDraw x y n s).getV vf = 1 ↔
      ∃ col row, col < s.cfg.fbW ∧ row < s.cfg.fbH ∧ spriteBit s x y n col row = true ∧ s.cellLit col row = true := by
  rw [getV_afterDraw_vf, flagByte_eq_one_iff, Framebuffer.xorCells_collision _ hfb (hitCells_nodup x y n s)]
  constructor
  · rintro ⟨c, hc, hlit⟩
    obtain ⟨col, row, hcol, hrow, hbit, rfl⟩ := exists_spriteBit_of_mem_hitCells hc
    exact ⟨col, row, hcol, hrow, hbit, hlit⟩
  · rintro ⟨col, row, hcol, hrow, hbit, hlit⟩
    exact ⟨_, (spriteBit_iff hcol hrow).1 hbit, hlit⟩

/-- A lit cell is at a set bit exactly when the draw turns it off. -/
theorem getV_afterDraw_vf_eq_one_iff_wentOut (hfb : s.fb.Pairwise (· < ·)) :
    (afterDraw x y n s).getV vf = 1 ↔
      ∃ col row, col < s.cfg.fbW ∧ row < s.cfg.fbH ∧ s.cellLit col row = true ∧
        (afterDraw x y n s).cellLit col row = false := by
  rw [getV_afterDraw_vf_eq_one_iff hfb]
  refine exists_congr fun col => exists_congr fun row => and_congr_right fun hcol => and_congr_right fun hrow => ?_
  rw [cellLit_afterDraw hfb hcol hrow]
  cases s.cellLit col row <;> simp

/-! ### The same sprite drawn again -/

/-- Toggling the same distinct cells again gives the framebuffer back. -/
theorem xorCells_xorCells {fb : Framebuffer} {cs : List Nat} (hfb : fb.Pairwise (· < ·)) (hcs : cs.Nodup) :
    ((fb.xorCells cs).1.xorCells cs).1 = fb := by
  have hfb' := Framebuffer.xorCells_pairwise cs hfb
  refine Framebuffer.eq_of_lit_eq (Framebuffer.xorCells_pairwise cs hfb') hfb fun c => ?_
  rw [Framebuffer.lit_xorCells cs hfb' hcs, Framebuffer.lit_xorCells cs hfb hcs, Bool.xor_assoc, Bool.xor_self,
    Bool.xor_false]

section SameOrigin

variable (hx : (afterDraw x y n s).getV x = s.getV x) (hy : (afterDraw x y n s).getV y = s.getV y)

include hy in
theorem spriteReadable_afterDraw (hread : spriteReadable s y n) : spriteReadable (afterDraw x y n s) y n := by
  simpa only [spriteReadable, afterDraw_cfg, afterDraw_i, hy] using hread

include hx hy

theorem hitCells_afterDraw : hitCells x y n (afterDraw x y n s) = hitCells x y n s := by
  simp only [hitCells, spriteCells, afterDraw_cfg, afterDraw_i, readByte_afterDraw, hx, hy]

theorem afterDraw_afterDraw_fb (hfb : s.fb.Pairwise (· < ·)) :
    (afterDraw x y n (afterDraw x y n s)).fb = s.fb := by
  rw [afterDraw_fb, hitCells_afterDraw hx hy, afterDraw_fb]
  exact xorCells_xorCells hfb (hitCells_nodup x y n s)

/-- The second draw turns off exactly the cells that the first lit, since it gives the first framebuffer back. -/
theorem getV_afterDraw_afterDraw_vf_eq_one_iff (hfb : s.fb.Pairwise (· < ·)) :
    (afterDraw x y n (afterDraw x y n s)).getV vf = 1 ↔
      ∃ col row, col < s.cfg.fbW ∧ row < s.cfg.fbH ∧ s.cellLit col row = false ∧
        (afterDraw x y n s).cellLit col row = true := by
  have hback (col row : Nat) : (afterDraw x y n (afterDraw x y n s)).cellLit col row = s.cellLit col row :=
    congrArg (fun fb => Framebuffer.lit fb (row * s.cfg.fbW + col)) (afterDraw_afterDraw_fb hx hy hfb)
  rw [getV_afterDraw_vf_eq_one_iff_wentOut (Framebuffer.xorCells_pairwise _ hfb)]
  simp only [hback, afterDraw_cfg, and_comm (a := State.cellLit (afterDraw x y n s) _ _ = true)]

end SameOrigin

/-! ### Settled: the display -/

/-- Settles O44: the cells toggled are distinct, and they are the screen cells at the sprite's set bits. -/
theorem drawTogglesExactlyTheSpriteBits : Obligations.DrawTogglesExactlyTheSpriteBits :=
  ⟨encodedBy_opcodeTable_getElem 22 (by decide), fun x y n s _ _ hwf hread =>
    ⟨_, exec_drw_of_readable hread, fun col row hcol hrow => cellLit_afterDraw hwf.1 hcol hrow,
      getV_afterDraw_vf_eq_one_or_zero x y n s, getV_afterDraw_vf_eq_one_iff hwf.1, afterDraw_redrawReq x y n s,
      afterDraw_eq x y n s, fun r hr => getV_afterDraw_other hr x y n s, readByte_afterDraw x y n s⟩⟩

/-- Settles O45: a lit cell at a set bit is a lit cell that the draw turns off. -/
theorem collisionFlagMeansALitCellWentOut : Obligations.CollisionFlagMeansALitCellWentOut := by
  intro x y n s t _ _ hwf hread hexec
  obtain rfl : afterDraw x y n s = t := Host.Outcome.next.inj ((exec_drw_of_readable hread).symm.trans hexec)
  exact ⟨getV_afterDraw_vf_eq_one_iff_wentOut hwf.1, getV_afterDraw_vf_eq_one_or_zero x y n s⟩

/-- Settles O46: at the same origin the second draw hits the cells that the first hit. -/
theorem drawingTwiceRestoresTheFrame : Obligations.DrawingTwiceRestoresTheFrame := by
  intro x y n s _ _ hwf hread
  exact ⟨_, exec_drw_of_readable hread, fun hx hy =>
    ⟨_, exec_drw_of_readable (spriteReadable_afterDraw hy hread), afterDraw_afterDraw_fb hx hy hwf.1,
      getV_afterDraw_afterDraw_vf_eq_one_iff hx hy hwf.1⟩⟩

/-- Settles O43: the cleared framebuffer lists no lit cell. -/
theorem clearScreenUnlightsEveryCell : Obligations.ClearScreenUnlightsEveryCell :=
  ⟨encodedBy_opcodeTable_getElem 0 (by decide), fun _ =>
    ⟨_, rfl, fun _ _ => Framebuffer.lit_nil _, rfl, rfl, fun _ => rfl, fun _ => rfl⟩⟩

end Sys2Proof.Machine
end

section
/-! Key skips, the key wait's beginning and the timer registers: `KeyDown` by the range of the key's number, and the one
element of the state that each instruction writes. -/

namespace Sys2Proof.Machine

variable {s : State} {v : Byte}

/-! ### `KeyDown` -/

theorem keyDown_of_le (h : v.toNat ≤ 15) : keyDown s v = s.input.keys.getLsbD v.toNat := if_pos h

theorem keyDown_of_gt_of_notDown (h : 15 < v.toNat) (hpolicy : s.cfg.keyRangePolicy = .notDown) :
    keyDown s v = false := by
  rw [keyDown, if_neg (Nat.not_le.2 h), hpolicy]

theorem keyDown_of_gt_of_lowNibble (h : 15 < v.toNat) (hpolicy : s.cfg.keyRangePolicy = .lowNibble) :
    keyDown s v = s.input.keys.getLsbD (v.toNat % 16) := by
  rw [keyDown, if_neg (Nat.not_le.2 h), hpolicy]

/-- The three cases of `KeyDown` leave it no other value. -/
theorem eq_keyDown {down : Bool} (hle : v.toNat ≤ 15 → down = s.input.keys.getLsbD v.toNat)
    (hnotDown : 15 < v.toNat → s.cfg.keyRangePolicy = .notDown → down = false)
    (hlowNibble : 15 < v.toNat → s.cfg.keyRangePolicy = .lowNibble → down = s.input.keys.getLsbD (v.toNat % 16)) :
    down = keyDown s v := by
  obtain h | h := le_or_gt v.toNat 15
  · exact (hle h).trans (keyDown_of_le h).symm
  · cases hpolicy : s.cfg.keyRangePolicy with
    | notDown => exact (hnotDown h hpolicy).trans (keyDown_of_gt_of_notDown h hpolicy).symm
    | lowNibble => exact (hlowNibble h hpolicy).trans (keyDown_of_gt_of_lowNibble h hpolicy).symm

/-! ### Settled: timers and keys -/

/-- Settles O27: Ex9E skips on `KeyDown`, ExA1 on its negation. -/
theorem skipsOnKeyState : Obligations.SkipsOnKeyState := by
  refine ⟨encodedBy_opcodeTable_getElem 23 (by decide), encodedBy_opcodeTable_getElem 24 (by decide),
    fun x s down hle hnotDown hlowNibble => ?_⟩
  obtain rfl := eq_keyDown hle hnotDown hlowNibble
  refine ⟨⟨_, rfl, ?_, onlyPcChanges_skipIf s _⟩, ⟨_, rfl, ?_, onlyPcChanges_skipIf s _⟩⟩
  · rw [State.skipIf_eq]
  · cases h : keyDown s (s.getV x) <;> rfl

/-- Settles O14: the wait is RUN's value alone. -/
theorem keyWaitBegins : Obligations.KeyWaitBegins :=
  ⟨encodedBy_opcodeTable_getElem 26 (by decide), fun _ _ => ⟨_, rfl, rfl, fun _ => rfl⟩⟩

/-- Settles O47: DT is written to Vx, as any byte is. -/
theorem delayTimerIsRead : Obligations.DelayTimerIsRead :=
  ⟨encodedBy_opcodeTable_getElem 25 (by decide), fun x s =>
    ⟨_, rfl, State.getV_setV_self s x s.dt, onlyRegsChange_setV s x s.dt⟩⟩

/-- Settles O48: each writes its timer alone. -/
theorem timersAreSet : Obligations.TimersAreSet :=
  ⟨encodedBy_opcodeTable_getElem 27 (by decide), encodedBy_opcodeTable_getElem 28 (by decide), fun _ _ =>
    ⟨⟨_, rfl, rfl, fun _ => rfl⟩, ⟨_, rfl, rfl, fun _ => rfl⟩⟩⟩

end Sys2Proof.Machine
end

section
/-! Fatal conditions and the host's inputs: what an instruction that ends the run has written, and a second execution of an
instruction with other inputs. -/

namespace Sys2Proof.Machine

variable {s t : State} {i : Instr} {c : Cause}

/-! ### The end of a run -/

theorem stepResult_of_halted (h : s.run = .halted c) : s.stepResult = none := by
  rw [State.stepResult, h]

/-- The instruction that each cause of `haltCause` comes from (rules R242, R244). -/
theorem cause_of_haltCause (h : haltCause i = some c) :
    (i = .ret ∧ c = .stackUnderflow) ∨ (∃ nnn, i = .call nnn ∧ c = .stackOverflow) ∨
      (((∃ x y n, i = .drw x y n) ∨ (∃ x, i = .ldB x) ∨ (∃ x, i = .storeRegs x) ∨ (∃ x, i = .loadRegs x)) ∧
        c = .memoryOutOfBounds) := by
  obtain rfl | ⟨nnn, rfl⟩ | hmem := haltCause_eq_some h
  · exact .inl ⟨rfl, (Option.some.inj h).symm⟩
  · exact .inr (.inl ⟨nnn, rfl, (Option.some.inj h).symm⟩)
  · refine .inr (.inr ⟨hmem, ?_⟩)
    obtain ⟨x, y, n, rfl⟩ | ⟨x, rfl⟩ | ⟨x, rfl⟩ | ⟨x, rfl⟩ := hmem <;> exact (Option.some.inj h).symm

/-- The effect that ends the run is the raising of the instruction's own cause. -/
theorem Effect.halt_of_run (h : Effect s i t) (hs : s.run = .running) (ht : t.run = .halted c) :
    haltCause i = some c ∧ t = raiseFatal c s := by
  cases h with
  | halt c' hi =>
    obtain rfl := RunState.halted.inj ht
    exact ⟨hi, rfl⟩
  | keyWait x => cases ht
  | _ => cases hs.symm.trans ht

/-! ### Settled: fatal conditions -/

/-- Settles O12: the halted state's step is a fault, and it holds no result for the host. -/
theorem haltedMachineHasNoTransition : Obligations.HaltedMachineHasNoTransition :=
  fun _ _ h => ⟨step_halted h, stepResult_of_halted h⟩

/-- Settles O50: every instruction has an effect, and the effect that ends the run carries the instruction's cause. -/
theorem everyInstructionCompletesWithItsOneCause : Obligations.EveryInstructionCompletesWithItsOneCause := by
  intro i s
  obtain ⟨t, hexec, heffect⟩ := exec_effect s i
  exact ⟨t, hexec, fun c hs ht => cause_of_haltCause (heffect.halt_of_run hs ht).1⟩

/-- Settles O51: the effect that ends the run is `raiseFatal`, which writes RUN alone. -/
theorem fatalConditionsArePrecise : Obligations.FatalConditionsArePrecise :=
  fun _ _ _ _ hs h ht => ((effect_of_exec h).halt_of_run hs ht).2

/-! ### Other inputs in the same state -/

/-- The state with other inputs of the step in progress. -/
def State.withInput (a : StepInput) (s : State) : State := { s with input := a }

theorem skipIf_withInput (a : StepInput) (s : State) {b b' : Bool} (h : b' = b) :
    State.skipIf b' (s.withInput a) = (State.skipIf b s).withInput a := by
  rw [h, State.skipIf_eq, State.skipIf_eq]
  rfl

theorem writeWithFlag_withInput (a : StepInput) (x : Reg) (r f : Byte) (s : State) :
    writeWithFlag x r f (s.withInput a) = (writeWithFlag x r f s).withInput a := by
  cases h : s.cfg.vfDestOrder <;> simp only [writeWithFlag, State.withInput, h] <;> rfl

theorem storeBytes_withInput (a : StepInput) (ws : List Byte) :
    ∀ (s : State) (p : Nat), (s.withInput a).storeBytes p ws = (s.storeBytes p ws).withInput a := by
  induction ws with
  | nil => exact fun _ _ => rfl
  | cons w ws ih => exact fun s p => ih (s.writeByte (State.addr p) w) (p + 1)

theorem loadFrom_withInput (a : StepInput) (p : Nat) (ks : List Reg) :
    ∀ s : State, State.loadFrom p ks (s.withInput a) = (State.loadFrom p ks s).withInput a := by
  induction ks with
  | nil => exact fun _ => rfl
  | cons k ks ih => exact fun s => ih (s.setV k (s.readByte (State.addr (p + k.val))))

/-- `KeyDown` reads the key snapshot alone of the inputs. -/
theorem keyDown_withInput {a : StepInput} (h : a.keys = s.input.keys) (v : Byte) :
    keyDown (s.withInput a) v = keyDown s v := by
  simp only [keyDown, State.withInput, h]

/-- A meaning that first checks for its fatal condition, in both executions. -/
theorem check_withInput {p : Prop} [Decidable p] {a : StepInput} {t' : State} (ht : t' = t.withInput a) :
    ∃ u, (if p then .next (raiseFatal c s) else .next t : Host.Outcome State Fault Refusal) = .next u ∧
      (if p then .next (raiseFatal c (s.withInput a)) else .next t' : Host.Outcome State Fault Refusal) =
        .next (u.withInput a) := by
  split
  · exact ⟨_, rfl, rfl⟩
  · exact ⟨_, rfl, congrArg _ ht⟩

/-- Two inputs agree on what an instruction reads of them: Cxnn the random byte, Ex9E and ExA1 the key snapshot, any other
nothing (rules R250, R252, R254). -/
structure AgreeOnReads (i : Instr) (a b : StepInput) : Prop where
  rnd : (∃ x nn, i = .rnd x nn) → a.rnd = b.rnd
  keys : (∃ x, i = .skp x ∨ i = .sknp x) → a.keys = b.keys

/-- With inputs that agree on what it reads, an instruction has the same effect, and the inputs stay as given. -/
theorem exec_and_exec_withInput (s : State) (a : StepInput) : ∀ i : Instr, AgreeOnReads i a s.input →
    ∃ t, exec i s = .next t ∧ exec i (s.withInput a) = .next (t.withInput a)
  | .rnd x nn, h =>
    ⟨_, rfl, congrArg (fun b => Host.Outcome.next ((s.setV x (nn &&& b)).withInput a)) (h.rnd ⟨x, nn, rfl⟩)⟩
  | .skp x, h =>
    ⟨_, rfl, congrArg Host.Outcome.next (skipIf_withInput a s (keyDown_withInput (h.keys ⟨x, .inl rfl⟩) _))⟩
  | .sknp x, h =>
    ⟨_, rfl, congrArg Host.Outcome.next
      (skipIf_withInput a s (congrArg not (keyDown_withInput (h.keys ⟨x, .inr rfl⟩) _)))⟩
  | .seImm _ _, _ | .sneImm _ _, _ | .seReg _ _, _ | .sneReg _ _, _ =>
    ⟨_, rfl, congrArg Host.Outcome.next (skipIf_withInput a s rfl)⟩
  | .addReg _ _, _ | .sub _ _, _ | .shr _ _, _ | .subn _ _, _ | .shl _ _, _ =>
    ⟨_, rfl, congrArg Host.Outcome.next (writeWithFlag_withInput a _ _ _ s)⟩
  | .ret, _ | .call _, _ | .drw _ _ _, _ => check_withInput rfl
  | .ldB _, _ | .storeRegs _, _ => check_withInput (storeBytes_withInput a _ s _)
  | .loadRegs _, _ => check_withInput (loadFrom_withInput a _ _ s)
  | .cls, _ | .jp _, _ | .jpV0 _, _ | .ldImm _ _, _ | .addImm _ _, _ | .ldReg _ _, _ | .orReg _ _, _ | .andReg _ _, _
  | .xorReg _ _, _ | .ldI _, _ | .addI _, _ | .ldF _, _ | .ldVxDt _, _ | .ldVxK _, _ | .ldDtVx _, _ | .ldStVx _, _
  | .unmapped _, _ => ⟨_, rfl, rfl⟩

theorem exec_withInput {a : StepInput} (h : exec i s = .next t) (ha : AgreeOnReads i a s.input) :
    exec i (s.withInput a) = .next (t.withInput a) := by
  obtain ⟨u, hu, hwith⟩ := exec_and_exec_withInput s a i ha
  rwa [Host.Outcome.next.inj (h.symm.trans hu)]

/-! ### Settled: the host's inputs -/

/-- Settles O54: inputs that differ only in the random byte agree on what any instruction but Cxnn reads, and inputs that
differ only in the key snapshot on what any but Ex9E and ExA1 reads. -/
theorem hostInputsReachOnlyTheirInstructions : Obligations.HostInputsReachOnlyTheirInstructions := by
  intro i s t h
  have hkept : t.input = s.input := by rw [exec_eq h]
  rw [hkept]
  refine ⟨fun b hi => ?_, fun k hi => ?_⟩
  · exact exec_withInput h ⟨fun ⟨x, nn, hx⟩ => absurd hx (hi x nn), fun _ => rfl⟩
  · exact exec_withInput h ⟨fun _ => rfl, fun ⟨x, hx⟩ => (hx.elim (hi x).1 (hi x).2).elim⟩

end Sys2Proof.Machine
end

section
/-! Two `Step` calls in a row: what a call keeps of its timer phase, and the second call's closed timer gate. -/

namespace Sys2Proof.Machine

variable {s t : State} {input : StepInput}

/-! ### A `Step` call after its timer phase -/

/-- The next state of a `Step` call is the timer phase, the failed fetch after it, or what the fetched instruction
answers. -/
theorem stepCall_next (h : stepCall input s = .next t) :
    t = timerPhase input s ∨
    t = { timerPhase input s with tInstr := input.now, run := .halted .programOutOfBounds } ∨
    exec (decode (wordAt s s.pc.toNat)) { timerPhase input s with tInstr := input.now, pc := s.pc + 2 } = .next t := by
  obtain ⟨_, heq⟩ | ⟨_, _, heq⟩ | ⟨_, _, heq⟩ := stepCall_cases input s
  · exact .inl (Host.Outcome.next.inj (h.symm.trans heq))
  · exact .inr (.inl (Host.Outcome.next.inj (h.symm.trans heq)))
  · exact .inr (.inr (heq.symm.trans h))

/-- After its timer phase, a `Step` call writes neither `T_TIMER`, TONE, the configuration nor the calls still given
(rule R109). -/
theorem kept_of_stepCall (h : stepCall input s = .next t) :
    t.tTimer = (timerPhase input s).tTimer ∧ t.tone = (timerPhase input s).tone ∧ t.cfg = s.cfg ∧
      t.pending = s.pending := by
  have hphase : (timerPhase input s).cfg = s.cfg ∧ (timerPhase input s).pending = s.pending := by
    rw [timerPhase_eq]
    exact ⟨rfl, rfl⟩
  obtain rfl | rfl | hexec := stepCall_next h
  · exact ⟨rfl, rfl, hphase⟩
  · exact ⟨rfl, rfl, hphase⟩
  · rw [exec_eq hexec]
    exact ⟨rfl, rfl, hphase⟩

/-- After the timer phase, DT is written by an Fx15 alone and ST by an Fx18 alone (rule R35). -/
theorem timerWriters_of_stepCall (h : stepCall input s = .next t) :
    (t.dt ≠ (timerPhase input s).dt → ∃ x, decode (wordAt s s.pc.toNat) = .ldDtVx x) ∧
    (t.st ≠ (timerPhase input s).st → ∃ x, decode (wordAt s s.pc.toNat) = .ldStVx x) := by
  obtain rfl | rfl | hexec := stepCall_next h
  · exact ⟨absurd rfl, absurd rfl⟩
  · exact ⟨absurd rfl, absurd rfl⟩
  · exact ⟨(effect_of_exec hexec).writer_of_dt, (effect_of_exec hexec).writer_of_st⟩

/-! ### Settled: the timer period -/

/-- Settles O10: the first call leaves `T_TIMER` at its own time, which keeps the second call's timer gate closed; the
second call then starts its instruction with DT and ST as the first left them and TONE clear. -/
theorem noSecondTimerTickWithinAPeriod : Obligations.NoSecondTimerTickWithinAPeriod := by
  intro s t u a b rest hrun hpending hdue hperiod hst htrun htu
  rw [step_given hrun hpending] at hst
  obtain ⟨htTimer, -, htcfg, htpending⟩ := kept_of_stepCall hst
  replace htTimer : t.tTimer = a.now := htTimer.trans (tTimer_timerPhase_of_due hdue)
  rw [step_given htrun htpending] at htu
  obtain ⟨huTimer, huTone, -, -⟩ := kept_of_stepCall htu
  have hclosed : ¬ TimerDue { t with pending := rest } b.now := by
    simpa [TimerDue, elapsed, htTimer, htcfg] using hperiod
  have hphase : timerPhase b { t with pending := rest } = beginStep b { t with pending := rest } :=
    timerPhase_not_due hclosed
  have hwriters := timerWriters_of_stepCall htu
  rw [hphase] at huTimer huTone hwriters ⊢
  exact ⟨htTimer, huTimer.trans htTimer, rfl, rfl, rfl, huTone, hwriters⟩

end Sys2Proof.Machine
end

section
/-! Construction as the only reset: the size it accepts, and the invariant of the state it leaves. -/

namespace Sys2Proof.Machine

theorem construct_of_tooLarge (cfg : Config) {rom : List Byte} (start : Nat) (h : 4096 < 0x200 + rom.length) :
    construct cfg rom start = .fault .romTooLarge := if_pos h

/-- The reset state is the blank state of the default parameters (rule R272; log 5). -/
theorem reset_eq_blankState : State.reset = blankState Config.standard 0 := rfl

/-- Settles O55: the default parameters lie in their ranges. -/
theorem resetMeetsInvariant : Obligations.ResetMeetsInvariant := by
  unfold Obligations.ResetMeetsInvariant
  rw [reset_eq_blankState]
  exact blankState_inv (by decide) 0

/-- Settles O59: by the size check, on either side of 3584 bytes. -/
theorem romSizeIsChecked : Obligations.RomSizeIsChecked := by
  refine fun cfg rom start => ⟨construct_of_tooLarge cfg start, fun hfit => ?_⟩
  obtain ⟨m, hconstruct, -⟩ := construct_of_fits cfg rom start hfit
  exact ⟨_, hconstruct⟩

end Sys2Proof.Machine
end
